-- ==== Sys2Proof/Word.lean ====
section
/-! DEFINITION. Words, bytes, register numbers, source selectors and error names of the bigint CORE
(spec/00_scope.md R7, R10, R11, R16; spec/30_encoding.md R84; spec/60_exceptions.md R201). -/

namespace Sys2Proof

/-- A word: 32 bits, bit 0 the least significant (R16). -/
abbrev Word := BitVec 32

/-- One byte of LMEM (R65). -/
abbrev Byte := BitVec 8

/-- The base of the limb representation, 2^LIMB_W with LIMB_W = 32 (R7). -/
abbrev limbBase : Nat := 2 ^ 32

/-- A destination: the number of one of the NREG = 16 operand registers B0..B15 (R10, R82). -/
abbrev RegNo := Fin 16

/-- A 6-bit source selector, split into the three rows of the selector map (R84). -/
inductive Src where
  /-- 0x00..0x0F: the operand register B(sel). -/
  | reg (i : Fin 16)
  /-- 0x10..0x20: the read-only constant K(sel - 0x10), one of NCONST = 17 (R11, R43). -/
  | const (k : Fin 17)
  /-- 0x21..0x3F: reserved, the selector 0x21 + j. -/
  | reserved (j : Fin 31)
  deriving DecidableEq, Repr

/-- The causes a failed command reports; the numeric codes are `errorCode` (R201). -/
inductive ErrCode where
  | illegalEncoding
  | illegalOperand
  | uninit
  | address
  | badLength
  | domain
  | negative
  | notInvertible
  | capacity
  | bufferTooSmall
  deriving DecidableEq, Repr

end Sys2Proof
end

