-- ==== Sys2Proof/Syntax.lean ====
section
/-! DEFINITION. The commands: one constructor per row of spec/opcode_table.json, operands in the
assembler's order, destinations first (spec/30_encoding.md R85, R88, R91). -/

namespace Sys2Proof

/-- A command term. The data a command needs beyond these operands comes from the latched ARG0 and
ARG1 (R80, R87). -/
inductive Instr where
  | nop
  | movi (rd : RegNo)
  | mov (rd : RegNo) (sa : Src)
  | cmp (sa sb : Src)
  | tstz (sa : Src)
  | len (sa : Src)
  | add (rd : RegNo) (sa sb : Src)
  | sub (rd : RegNo) (sa sb : Src)
  | mul (rd : RegNo) (sa sb : Src)
  | div (rd re : RegNo) (sa sb : Src)
  | quo (rd : RegNo) (sa sb : Src)
  | mod (rd : RegNo) (sa sb : Src)
  | load (rd : RegNo)
  | store (sa : Src)
  | storep (sa : Src)
  | gcd (rd : RegNo) (sa sb : Src)
  | modinv (rd : RegNo) (sa sb : Src)
  | modpow (rd : RegNo) (sa sb sc : Src)
  | jacobi (rd : RegNo) (sa sb : Src)
  deriving DecidableEq, Repr

end Sys2Proof
end

