-- ==== Sys2Proof/WellFormed.lean ====
section
/-! DEFINITION. The operand checks a command word must pass to be a legal command: no reserved source
selector, and two different destinations for DIV (spec/30_encoding.md R84, R89, R90; spec/43_divide.md
R141). A term that fails one is what the core answers with ILLEGAL_OPERAND. -/

namespace Sys2Proof

/-- A selector outside 0x21..0x3F (R84). -/
def Src.legal : Src → Bool
  | .reg _ => true
  | .const _ => true
  | .reserved _ => false

/-- The source fields a command's form uses, in the order sa, sb, sc (R85). -/
def Instr.srcs : Instr → List Src
  | .nop => []
  | .movi _ => []
  | .mov _ sa => [sa]
  | .cmp sa sb => [sa, sb]
  | .tstz sa => [sa]
  | .len sa => [sa]
  | .add _ sa sb => [sa, sb]
  | .sub _ sa sb => [sa, sb]
  | .mul _ sa sb => [sa, sb]
  | .div _ _ sa sb => [sa, sb]
  | .quo _ sa sb => [sa, sb]
  | .mod _ sa sb => [sa, sb]
  | .load _ => []
  | .store sa => [sa]
  | .storep sa => [sa]
  | .gcd _ sa sb => [sa, sb]
  | .modinv _ sa sb => [sa, sb]
  | .modpow _ sa sb sc => [sa, sb, sc]
  | .jacobi _ sa sb => [sa, sb]

/-- The destination fields a command's form uses, rd before re (R85). -/
def Instr.dsts : Instr → List RegNo
  | .nop => []
  | .movi rd => [rd]
  | .mov rd _ => [rd]
  | .cmp _ _ => []
  | .tstz _ => []
  | .len _ => []
  | .add rd _ _ => [rd]
  | .sub rd _ _ => [rd]
  | .mul rd _ _ => [rd]
  | .div rd re _ _ => [rd, re]
  | .quo rd _ _ => [rd]
  | .mod rd _ _ => [rd]
  | .load rd => [rd]
  | .store _ => []
  | .storep _ => []
  | .gcd rd _ _ => [rd]
  | .modinv rd _ _ => [rd]
  | .modpow rd _ _ _ => [rd]
  | .jacobi rd _ _ => [rd]

/-- DIV's two results cannot share one register (R141); every other command passes. -/
def Instr.dstsDiffer : Instr → Bool
  | .div rd re _ _ => rd != re
  | .nop => true
  | .movi _ => true
  | .mov _ _ => true
  | .cmp _ _ => true
  | .tstz _ => true
  | .len _ => true
  | .add _ _ _ => true
  | .sub _ _ _ => true
  | .mul _ _ _ => true
  | .quo _ _ _ => true
  | .mod _ _ _ => true
  | .load _ => true
  | .store _ => true
  | .storep _ => true
  | .gcd _ _ _ => true
  | .modinv _ _ _ => true
  | .modpow _ _ _ _ => true
  | .jacobi _ _ _ => true

/-- A legal command term: what decode answers as a command (R90). -/
def Instr.wf (i : Instr) : Bool := i.srcs.all Src.legal && i.dstsDiffer

end Sys2Proof
end

