-- ==== Sys2Proof/Decode.lean ====
section
/-! DEFINITION. The command word's fields, the decoder, and the encoder written from the same tables
(spec/30_encoding.md R80 to R90). Decoding is total on 32-bit words and rejects by error name. -/

namespace Sys2Proof

/-- `w[lo+width-1 : lo]` read as an unsigned number (R16). -/
def field (w : Word) (lo width : Nat) : Nat := w.toNat / 2 ^ lo % 2 ^ width

/-- The opcode field w[31:26] (R81). -/
def opField (w : Word) : Nat := field w 26 6

/-- A 4-bit register number read at `lo`; every value is legal (R82). -/
def regField (w : Word) (lo : Nat) : RegNo := ⟨field w lo 4, Nat.mod_lt _ (by decide)⟩

/-- The selector map read as a table from numbers (R84); only numbers below 64 are selectors. -/
def Src.ofNat (n : Nat) : Src :=
  if h : n < 16 then .reg ⟨n, h⟩
  else if h2 : n < 33 then .const ⟨n - 16, by omega⟩
  else .reserved ⟨(n - 33) % 31, Nat.mod_lt _ (by decide)⟩

/-- The number of a selector (R84). -/
def Src.toNat : Src → Nat
  | .reg i => i.val
  | .const k => 0x10 + k.val
  | .reserved j => 0x21 + j.val

/-- A 6-bit source selector read at `lo` (R83). -/
def srcField (w : Word) (lo : Nat) : Src := Src.ofNat (field w lo 6)

/-! The forms of R85: each checks that the fields it does not use hold 0 (R86) and hands on the rest. -/

def formN (w : Word) (i : Instr) : Option Instr :=
  if regField w 22 = 0 ∧ regField w 18 = 0 ∧ field w 12 6 = 0 ∧ field w 6 6 = 0 ∧ field w 0 6 = 0
  then some i else none

def formD (w : Word) (mk : RegNo → Instr) : Option Instr :=
  if regField w 18 = 0 ∧ field w 12 6 = 0 ∧ field w 6 6 = 0 ∧ field w 0 6 = 0
  then some (mk (regField w 22)) else none

def formDA (w : Word) (mk : RegNo → Src → Instr) : Option Instr :=
  if regField w 18 = 0 ∧ field w 6 6 = 0 ∧ field w 0 6 = 0
  then some (mk (regField w 22) (srcField w 12)) else none

def formA (w : Word) (mk : Src → Instr) : Option Instr :=
  if regField w 22 = 0 ∧ regField w 18 = 0 ∧ field w 6 6 = 0 ∧ field w 0 6 = 0
  then some (mk (srcField w 12)) else none

def formAB (w : Word) (mk : Src → Src → Instr) : Option Instr :=
  if regField w 22 = 0 ∧ regField w 18 = 0 ∧ field w 0 6 = 0
  then some (mk (srcField w 12) (srcField w 6)) else none

def formDAB (w : Word) (mk : RegNo → Src → Src → Instr) : Option Instr :=
  if regField w 18 = 0 ∧ field w 0 6 = 0
  then some (mk (regField w 22) (srcField w 12) (srcField w 6)) else none

def formDEAB (w : Word) (mk : RegNo → RegNo → Src → Src → Instr) : Option Instr :=
  if field w 0 6 = 0
  then some (mk (regField w 22) (regField w 18) (srcField w 12) (srcField w 6)) else none

def formDABC (w : Word) (mk : RegNo → Src → Src → Src → Instr) : Option Instr :=
  if regField w 18 = 0
  then some (mk (regField w 22) (srcField w 12) (srcField w 6) (srcField w 0)) else none

/-- The encoding half of decode: the opcode is one of the table of R88 and every field outside its form
is 0. `none` is ILLEGAL_ENCODING (R208). The term may still name a reserved selector. -/
def decodeForm (w : Word) : Option Instr :=
  match opField w with
  | 0x00 => formN w .nop
  | 0x01 => formD w .movi
  | 0x02 => formDA w .mov
  | 0x03 => formAB w .cmp
  | 0x04 => formA w .tstz
  | 0x05 => formA w .len
  | 0x08 => formDAB w .add
  | 0x09 => formDAB w .sub
  | 0x0A => formDAB w .mul
  | 0x0C => formDEAB w .div
  | 0x0D => formDAB w .quo
  | 0x0E => formDAB w .mod
  | 0x10 => formD w .load
  | 0x11 => formA w .store
  | 0x12 => formA w .storep
  | 0x18 => formDAB w .gcd
  | 0x19 => formDAB w .modinv
  | 0x1A => formDABC w .modpow
  | 0x1B => formDAB w .jacobi
  | _ => none

/-- decode of R90: a legal command term, or the error its word fails with. -/
def decode (w : Word) : Except ErrCode Instr :=
  match decodeForm w with
  | none => .error .illegalEncoding
  | some i => if i.wf then .ok i else .error .illegalOperand

/-- Pack the six fields: w = op << 26 | rd << 22 | re << 18 | sa << 12 | sb << 6 | sc (R81). -/
def packWord (op : Nat) (rd re : RegNo) (sa sb sc : Nat) : Word :=
  BitVec.ofNat 32
    (op * 2 ^ 26 + rd.val * 2 ^ 22 + re.val * 2 ^ 18 + sa * 2 ^ 12 + sb * 2 ^ 6 + sc)

/-- The word of a command; unused fields are 0 (R81, R86, R88). -/
def encode : Instr → Word
  | .nop => packWord 0x00 0 0 0 0 0
  | .movi rd => packWord 0x01 rd 0 0 0 0
  | .mov rd sa => packWord 0x02 rd 0 sa.toNat 0 0
  | .cmp sa sb => packWord 0x03 0 0 sa.toNat sb.toNat 0
  | .tstz sa => packWord 0x04 0 0 sa.toNat 0 0
  | .len sa => packWord 0x05 0 0 sa.toNat 0 0
  | .add rd sa sb => packWord 0x08 rd 0 sa.toNat sb.toNat 0
  | .sub rd sa sb => packWord 0x09 rd 0 sa.toNat sb.toNat 0
  | .mul rd sa sb => packWord 0x0A rd 0 sa.toNat sb.toNat 0
  | .div rd re sa sb => packWord 0x0C rd re sa.toNat sb.toNat 0
  | .quo rd sa sb => packWord 0x0D rd 0 sa.toNat sb.toNat 0
  | .mod rd sa sb => packWord 0x0E rd 0 sa.toNat sb.toNat 0
  | .load rd => packWord 0x10 rd 0 0 0 0
  | .store sa => packWord 0x11 0 0 sa.toNat 0 0
  | .storep sa => packWord 0x12 0 0 sa.toNat 0 0
  | .gcd rd sa sb => packWord 0x18 rd 0 sa.toNat sb.toNat 0
  | .modinv rd sa sb => packWord 0x19 rd 0 sa.toNat sb.toNat 0
  | .modpow rd sa sb sc => packWord 0x1A rd 0 sa.toNat sb.toNat sc.toNat
  | .jacobi rd sa sb => packWord 0x1B rd 0 sa.toNat sb.toNat 0

/-- The word whose bits the opcode table numbers: `nbits` low bits of `w`, every bit above them 0. A
command is one 32-bit word (R80), so byte order plays no part: the host writes it in one 32-bit access. -/
def tableWord (nbits w : Nat) : Word := BitVec.ofNat 32 (w % 2 ^ nbits)

/-- The host's question: the instruction the encoding tables read from a table word. It answers none
where the word fails with ILLEGAL_ENCODING. A word with a reserved selector or with DIV's rd = re is
read as its row's command, which the core then fails with ILLEGAL_OPERAND (log entry 8). -/
def decodeTableWord (nbits w : Nat) : Option Instr := decodeForm (tableWord nbits w)

end Sys2Proof
end

