-- ==== Sys2Proof/Config.lean ====
section
/-! DEFINITION. The open parameters of an implementation (spec/00_scope.md R8, R9, R12;
spec/60_exceptions.md R220; spec/92_eei_decisions.md, "Named parameters a model takes").
They are plain data carried in State and changed by no step, so a claim over every state is a claim
for every MAXL, LMEM_BYTES, BASE and IRQ_LINE (log entry 1). T_CMD has no field: a model takes no time
(R235), and when a completion happens is said by the input list (log entry 3). -/

namespace Sys2Proof

/-- The platform's choices. -/
structure Config where
  /-- MAXL: the capacity of every operand register in limbs (R8). -/
  maxl : Nat
  /-- LMEM_BYTES: the size of LMEM in bytes (R9). -/
  lmemBytes : Nat
  /-- BASE: the bus address of the register window (R12). -/
  base : Nat
  /-- IRQ_LINE: the host's interrupt input that IRQ drives (R220). -/
  irqLine : Nat
  deriving DecidableEq, Repr

/-- The ranges the spec gives the parameters (R8, R9, R12). -/
abbrev Config.wf (c : Config) : Prop :=
  1 ≤ c.maxl ∧ c.maxl ≤ 65535 ∧ c.lmemBytes % 4 = 0 ∧ 16 ≤ c.lmemBytes ∧ c.lmemBytes ≤ 2 ^ 24 ∧
    c.base % 2 ^ 25 = 0

/-- The reference configuration MAXL = 128, LMEM_BYTES = 4096 (R8, R9).
DESIGN CHOICE (log entry 1, unsafe): BASE and IRQ_LINE, which the spec leaves to the platform with no
reference value, are 0 here. -/
def Config.reference : Config where
  maxl := 128
  lmemBytes := 4096
  base := 0
  irqLine := 0

end Sys2Proof
end

