-- ==== Sys2Proof/Machine/State.lean ====
section
/-! DEFINITION. Every piece of state the spec gives the core, the bus inputs that move it, the reasons a
step can stop, and the state right after reset (spec/10_state.md; spec/20_memory.md R65, R69;
spec/70_reset_and_hazards.md R230). -/

namespace Sys2Proof.Machine

/-- An operand register: its bigint value, a natural number (R14, R41), and its valid bit (R42). -/
structure BReg where
  value : Nat
  valid : Bool
  deriving DecidableEq, Repr

/-- LMEM as (byte offset, byte) pairs in canonical form: offsets strictly rising, no byte 0. An offset
not listed reads as 0 (log entry 2). -/
abbrev Memory := List (Nat × BitVec 8)

/-- The fields of STATUS (R56). Its reserved bits [31:16] always read 0 and are not state (R49). -/
structure Status where
  busy : Bool
  done : Bool
  err : Bool
  ovr : Bool
  z : Bool
  lt : Bool
  eq : Bool
  gt : Bool
  errcode : BitVec 8
  deriving DecidableEq, Repr

/-- What a host bus access does (R69). -/
inductive AccessKind where
  | read
  | write
  /-- An instruction fetch from the window, which is not supported (R69). -/
  | fetch
  deriving DecidableEq, Repr

/-- One host bus access: an absolute bus address (R12), a width in bytes, and for a write the data in
its low bits, byte lane k on bits [8k+7:8k] (R68). -/
structure Access where
  kind : AccessKind
  bytes : Nat
  addr : Nat
  data : Word
  deriving DecidableEq, Repr

/-- What the core answers on the bus (R69). -/
inductive Response where
  /-- A permitted write. -/
  | ack
  /-- A permitted read, narrower data in the low bits (R68). -/
  | data (w : Word)
  /-- The bus error response: no effect, no data. -/
  | busError
  deriving DecidableEq, Repr

/-- One event from outside the command datapath. The list of them in State is the interleaving of the
host with the core's completion step (U3, U8; log entry 3). -/
inductive Input where
  /-- T_CMD has run out: the core takes its completion step if BUSY = 1 (R62). -/
  | core
  /-- The host makes one bus access. -/
  | bus (a : Access)
  /-- The platform asserts RST (R230). -/
  | rstAssert
  /-- The platform releases RST; `draw` is what LMEM happens to hold then, a free draw (U1). -/
  | rstRelease (draw : List (Nat × BitVec 8))
  deriving DecidableEq, Repr

/-- The machine. Everything is plain data. -/
structure State where
  /-- The open parameters; no step changes them. -/
  cfg : Config
  /-- B0..B15 with their valid bits (R40, R42). -/
  breg : Vector BReg 16
  /-- ARG0, offset 0x018 (R50). -/
  arg0 : Word
  /-- ARG1, offset 0x01C (R50). -/
  arg1 : Word
  /-- CTRL.IE (R55); CTRL.SRST always reads 0 and is not state. -/
  ie : Bool
  /-- STATUS, offset 0x010, with the hidden bit BUSY (R56, R61). -/
  status : Status
  /-- CUR, the latched command word (R61). -/
  cur : Word
  /-- A0L, the latched ARG0 (R50, R61). -/
  a0l : Word
  /-- A1L, the latched ARG1 (R50, R61). -/
  a1l : Word
  /-- RESULT, offset 0x020 (R57). -/
  result : Word
  /-- ERRCMD, offset 0x024 (R58). -/
  errcmd : Word
  /-- CMDCNT, offset 0x028 (R59). -/
  cmdcnt : Word
  /-- LMEM (R65). -/
  lmem : Memory
  /-- The level of the reset input: 1 while the platform asserts RST (R230). -/
  rst : Bool
  /-- The model's own: the events still to come, oldest first (log entry 3). -/
  inputs : List Input
  /-- The model's own: the core's answer to the last host access, none before the first (log entry 4). -/
  resp : Option Response
  deriving DecidableEq, Repr

/-- Why a step stops with a fault: never. "No error stops the core" (R200): a failed command completes,
and a refused bus access is answered on the bus (R69), so the type has no constructor. -/
inductive Fault where
  deriving DecidableEq, Repr

/-- Why a step has no meaning. -/
inductive Refusal where
  /-- Raised by `exec` for an instruction with no meaning yet; no arm raises it. Safe. -/
  | notModelled (mnemonic : String)
  /-- Raised by `takeInput` for a host access to the window while RST is asserted, which the spec puts outside the
  contract: "the host must not access the window" (R230), treatment `refuse` (U4). Safe. -/
  | accessDuringReset
  deriving DecidableEq, Repr

/-- Right after a hardware reset of the reference configuration (R230). LMEM lists nothing, the free
draw all zero, and the unobservable values of B0..B15 are 0: DESIGN CHOICE, log entries 2 and 5.
Every other draw is `hardReset`'s, and claims about reset are stated of it. -/
def State.reset : State where
  cfg := Config.reference
  breg := Vector.replicate 16 ⟨0, false⟩
  arg0 := 0
  arg1 := 0
  ie := false
  status := ⟨false, false, false, false, false, false, false, false, 0⟩
  cur := 0
  a0l := 0
  a1l := 0
  result := 0
  errcmd := 0
  cmdcnt := 0
  lmem := []
  rst := false
  inputs := []
  resp := none

end Sys2Proof.Machine
end

