-- ==== Sys2Proof/Machine/Limbs.lean ====
section
/-! DEFINITION. Limbs and limb counts of bigint values, and the two's-complement word of a small integer
(spec/00_scope.md R15, R16). -/

namespace Sys2Proof.Machine

/-- limb(v, i) = (v div 2^(32·i)) mod 2^32 (R15). -/
def limb (v i : Nat) : Nat := v / limbBase ^ i % limbBase

/-- len(v): the least n with v < 2^(32·n) (R15), computed from the place of the top bit; `len_le_iff`
says that it is that least number. -/
def len (v : Nat) : Nat := if v = 0 then 0 else Nat.log2 v / 32 + 1

/-- The value Σ l_i · 2^(32·i) of a limb sequence, least significant limb first (R7). -/
def limbsVal : List Nat → Nat
  | [] => 0
  | l :: ls => l + limbBase * limbsVal ls

/-- The first n limbs of v, least significant first; limb(v, i) is 0 beyond len(v) (R15, R120). -/
def limbs (v : Nat) : Nat → List Nat
  | 0 => []
  | n + 1 => v % limbBase :: limbs (v / limbBase) n

/-- tc32(x) = x mod 2^32 (R16). -/
def tc32 (x : Int) : Word := BitVec.ofInt 32 x

/-- zext_32(v), for 0 <= v < 2^32 (R16). -/
def zext32 (v : Nat) : Word := BitVec.ofNat 32 v

end Sys2Proof.Machine
end

