-- ==== Sys2Proof/Machine/Flags.lean ====
section
/-! DEFINITION. The flag computations and the STATUS word (spec/10_state.md R47, R55, R56;
spec/60_exceptions.md R201, R220). -/

namespace Sys2Proof.Machine

/-- Z of a value: 1 when it is zero (R47). -/
def zeroFlag (v : Nat) : Bool := v == 0

/-- CMP's RESULT: tc32(-1), 0 or 1 (R103). -/
def orderWord : Ordering → Word
  | .lt => tc32 (-1)
  | .eq => 0
  | .gt => 1

/-- Write Z if the command writes it (R47). -/
def Status.setZ (z : Option Bool) (st : Status) : Status :=
  match z with
  | none => st
  | some b => { st with z := b }

/-- Write LT, EQ and GT, exactly one of them 1, if the command is a CMP (R47, R103). -/
def Status.setOrder (o : Option Ordering) (st : Status) : Status :=
  match o with
  | none => st
  | some c => { st with lt := c == .lt, eq := c == .eq, gt := c == .gt }

/-- The error codes of STATUS.ERRCODE (R201). -/
def errorCode : ErrCode → BitVec 8
  | .illegalEncoding => 0x01
  | .illegalOperand => 0x02
  | .uninit => 0x03
  | .address => 0x04
  | .badLength => 0x05
  | .domain => 0x06
  | .negative => 0x07
  | .notInvertible => 0x08
  | .capacity => 0x09
  | .bufferTooSmall => 0x0A

/-- The STATUS word: BUSY, DONE, ERR, OVR, Z, LT, EQ, GT in bits 0 to 7, ERRCODE in [15:8], the rest 0
(R49, R56). -/
def Status.toWord (st : Status) : Word :=
  BitVec.ofNat 32
    (st.busy.toNat + st.done.toNat * 2 + st.err.toNat * 4 + st.ovr.toNat * 8 + st.z.toNat * 16 +
      st.lt.toNat * 32 + st.eq.toNat * 64 + st.gt.toNat * 128 + st.errcode.toNat * 256)

/-- A host write to STATUS clears DONE and OVR where the written word has a 1, nothing else (R56). -/
def Status.writeOneToClear (d : Word) (st : Status) : Status :=
  { st with done := st.done && !d.getLsbD 1, ovr := st.ovr && !d.getLsbD 3 }

/-- The interrupt output: IRQ = CTRL.IE AND STATUS.DONE, not separate state (R63, R220). -/
def State.irq (s : State) : Bool := s.ie && s.status.done

/-- The host's interrupt input that IRQ drives, with its level (R220). -/
def State.irqOut (s : State) : Nat × Bool := (s.cfg.irqLine, s.irq)

end Sys2Proof.Machine
end

