-- ==== Sys2Proof/Machine/Ops.lean ====
section
/-! DEFINITION. The named operations over registers and LMEM, a command's outcome as the set of its writes,
the one completion step that ends every command, well or badly, and the two resets
(spec/10_state.md R45, R61, R62; spec/20_memory.md R66, R67; spec/60_exceptions.md R200 to R203;
spec/70_reset_and_hazards.md R230, R231). -/

namespace Sys2Proof.Machine

/-! ### LMEM -/

/-- What an offset that lists no byte reads as (log entry 2). -/
def Memory.unlisted : BitVec 8 := 0

/-- The byte at an offset. -/
def Memory.read : Memory → Nat → BitVec 8
  | [], _ => Memory.unlisted
  | (k, b) :: m, a => if a = k then b else Memory.read m a

/-- Put one byte. The list stays canonical: sorted, and the unlisted byte is taken out, not stored. -/
def Memory.write : Memory → Nat → BitVec 8 → Memory
  | [], a, v => if v = Memory.unlisted then [] else [(a, v)]
  | (k, b) :: m, a, v =>
    if a < k then (if v = Memory.unlisted then (k, b) :: m else (a, v) :: (k, b) :: m)
    else if a = k then (if v = Memory.unlisted then m else (k, v) :: m)
    else (k, b) :: Memory.write m a v

/-- Every offset of the list is above `lo`, they rise, and no byte is the unlisted one. -/
def Memory.wfAbove : Option Nat → Memory → Bool
  | _, [] => true
  | lo, (k, b) :: m =>
    (match lo with | none => true | some l => decide (l < k)) && b != Memory.unlisted &&
      Memory.wfAbove (some k) m

/-- The canonical form: equal memories are equal lists. -/
def Memory.wf (m : Memory) : Bool := Memory.wfAbove none m

/-- Every listed offset is one of 0 .. n-1 (R65). -/
def Memory.within (n : Nat) (m : Memory) : Bool := m.all fun c => decide (c.1 < n)

/-- MemRead(addr, n) = Σ_{i<n} LMEM[addr+i] · 2^(8·i) (R66). -/
def memRead (m : Memory) (addr : Nat) : Nat → Nat
  | 0 => 0
  | n + 1 => (m.read addr).toNat + 256 * memRead m (addr + 1) n

/-- MemWrite(addr, n, v): LMEM[addr+i] <- (v div 2^(8·i)) mod 256 for i < n (R67). -/
def memWrite (m : Memory) (addr : Nat) : Nat → Nat → Memory
  | 0, _ => m
  | n + 1, v => memWrite (m.write addr (BitVec.ofNat 8 v)) (addr + 1) n (v / 256)

/-- An LMEM of `n` bytes holding a free draw, in canonical form: a byte the draw does not give is 0, and
bytes outside 0 .. n-1 do not exist (R65, U1). -/
def drawMemory (n : Nat) (draw : List (Nat × BitVec 8)) : Memory :=
  draw.foldl (fun m c => if c.1 < n then m.write c.1 c.2 else m) []

/-! ### Operand registers -/

/-- `B[i] <- v` writes the value and sets valid[i] (R17, R42). -/
def writeReg (b : Vector BReg 16) (i : RegNo) (v : Nat) : Vector BReg 16 := b.set i ⟨v, true⟩

/-- The register writes of a command, in order; a command names a register at most once. -/
def writeRegs (b : Vector BReg 16) : List (RegNo × Nat) → Vector BReg 16
  | [] => b
  | (i, v) :: ws => writeRegs (writeReg b i v) ws

/-! ### The outcome of a command and the completion step -/

/-- An LMEM write of a command: MemWrite(addr, bytes, value). -/
structure MemStore where
  addr : Nat
  bytes : Nat
  value : Nat
  deriving DecidableEq, Repr

/-- "`ok` with a set of writes (destination registers, LMEM bytes, RESULT, flags)" (R62); a field left
at its default is not written. -/
structure Writes where
  dst : List (RegNo × Nat) := []
  z : Option Bool := none
  order : Option Ordering := none
  result : Option Word := none
  mem : Option MemStore := none
  deriving DecidableEq, Repr

/-- The outcome of a command: `ok(writes)` or `error CODE` (R62). -/
abbrev CmdOutcome := Except ErrCode Writes

/-- What every completion does, successful or failed: BUSY <- 0, DONE <- 1, CMDCNT <- CMDCNT + 1 mod
2^32 (R59, R62). -/
def endCommand (s : State) : State :=
  { s with status := { s.status with busy := false, done := true }, cmdcnt := s.cmdcnt + 1 }

/-- Apply a successful command's writes, all at once; ERR <- 0, ERRCODE <- 0 (R45, R62). -/
def applyWrites (w : Writes) (s : State) : State :=
  { s with
    breg := writeRegs s.breg w.dst
    lmem := match w.mem with
      | none => s.lmem
      | some st => memWrite s.lmem st.addr st.bytes st.value
    result := w.result.getD s.result
    status := { (s.status.setZ w.z).setOrder w.order with err := false, errcode := 0x00 } }

/-- Taking an error, the one shared operation for every failing command: ERR <- 1, ERRCODE <- CODE,
ERRCMD <- CUR, and nothing else (R62, R200, R202, R203). The core has no trap to enter and none to
return from (R219, R222). -/
def takeError (c : ErrCode) (s : State) : State :=
  { s with status := { s.status with err := true, errcode := errorCode c }, errcmd := s.cur }

/-- The completion step of R62 for a command whose outcome is known. -/
def complete (o : CmdOutcome) (s : State) : State :=
  endCommand (match o with
    | .ok w => applyWrites w s
    | .error c => takeError c s)

/-- Accept: what a host write of `w` to CMD does (R61). -/
def acceptCommand (w : Word) (s : State) : State :=
  if s.status.busy then { s with status := { s.status with ovr := true } }
  else { s with cur := w, a0l := s.arg0, a1l := s.arg1,
                status := { s.status with busy := true, done := false } }

/-! ### Reset -/

/-- Every piece of state of R230 but LMEM at its reset value. The parameters, the RST level and the
model's own inputs and answer are no state of that table. -/
def resetControl (s : State) : State :=
  { s with
    breg := Vector.replicate 16 ⟨0, false⟩
    arg0 := 0, arg1 := 0, ie := false
    status := ⟨false, false, false, false, false, false, false, false, 0⟩
    cur := 0, a0l := 0, a1l := 0
    result := 0, errcmd := 0, cmdcnt := 0 }

/-- Soft reset: everything but LMEM; a command in flight is abandoned (R231). -/
def softReset (s : State) : State := resetControl s

/-- The release of RST: everything, LMEM holding a free draw, and no bus answer outstanding (R230, U1). -/
def hardReset (draw : List (Nat × BitVec 8)) (s : State) : State :=
  { resetControl s with lmem := drawMemory s.cfg.lmemBytes draw, rst := false, resp := none }

end Sys2Proof.Machine
end

