-- ==== Sys2Proof/Machine/Bus.lean ====
section
/-! DEFINITION. The host's side: the register map, LMEM over the bus, bus errors, and the wait of an LMEM
access while a command runs (spec/10_state.md R48 to R61; spec/20_memory.md R68 to R73). -/

namespace Sys2Proof.Machine

/-- The size of the window at BASE (R12, R73). -/
abbrev windowBytes : Nat := 2 ^ 25

/-- The offset of LMEM in the window (R48, R65). -/
abbrev lmemOffset : Nat := 0x1000

/-- PARAM0: MAXL in [15:0], NREG in [23:16], NCONST in [31:24] (R53). -/
def param0 (c : Config) : Word := BitVec.ofNat 32 (c.maxl + 0x10 * 2 ^ 16 + 0x11 * 2 ^ 24)

/-- A 32-bit read of the register block at an aligned offset; reads change nothing (R48 to R60, R72).
CMD and the reserved offsets read 0, as do CTRL.SRST and every reserved bit. -/
def regRead (s : State) (off : Nat) : Word :=
  if off = 0x000 then 0x52534131
  else if off = 0x004 then param0 s.cfg
  else if off = 0x008 then zext32 s.cfg.lmemBytes
  else if off = 0x00C then zext32 s.ie.toNat
  else if off = 0x010 then s.status.toWord
  else if off = 0x018 then s.arg0
  else if off = 0x01C then s.arg1
  else if off = 0x020 then s.result
  else if off = 0x024 then s.errcmd
  else if off = 0x028 then s.cmdcnt
  else 0

/-- A write to CTRL: bit 1 resets and the other bits of that write are ignored; else bit 0 is IE (R55,
R231). -/
def writeCtrl (d : Word) (s : State) : State :=
  if d.getLsbD 1 then softReset s else { s with ie := d.getLsbD 0 }

/-- A 32-bit write to the register block at an aligned offset. Read-only and reserved offsets ignore it
(R48, R60). -/
def regWrite (d : Word) (off : Nat) (s : State) : State :=
  if off = 0x00C then writeCtrl d s
  else if off = 0x010 then { s with status := s.status.writeOneToClear d }
  else if off = 0x014 then acceptCommand d s
  else if off = 0x018 then { s with arg0 := d }
  else if off = 0x01C then { s with arg1 := d }
  else s

/-- Answer an access (the model's own record of the bus response). -/
def answer (r : Response) (s : State) : State := { s with resp := some r }

/-- An access to the register block: aligned 32-bit reads and writes only (R69). -/
def regAccess (a : Access) (off : Nat) (s : State) : State :=
  if a.bytes = 4 ∧ off % 4 = 0 then
    match a.kind with
    | .read => answer (.data (regRead s off)) s
    | .write => answer .ack (regWrite a.data off s)
    | .fetch => answer .busError s
  else answer .busError s

/-- The widths the LMEM region takes: 1, 2 or 4 bytes (R69). -/
def lmemWidth (n : Nat) : Bool := n == 1 || n == 2 || n == 4

/-- An access to LMEM at byte offset k: naturally aligned 8-, 16- and 32-bit reads and writes, read as
MemRead(k, bytes) and written as MemWrite(k, bytes, data) (R68, R69). -/
def lmemAccess (a : Access) (k : Nat) (s : State) : State :=
  if lmemWidth a.bytes ∧ k % a.bytes = 0 ∧ k + a.bytes ≤ s.cfg.lmemBytes then
    match a.kind with
    | .read => answer (.data (BitVec.ofNat 32 (memRead s.lmem k a.bytes))) s
    | .write => answer .ack { s with lmem := memWrite s.lmem k a.bytes a.data.toNat }
    | .fetch => answer .busError s
  else answer .busError s

/-- The access falls in the core's window. -/
def inWindow (s : State) (a : Access) : Bool :=
  decide (s.cfg.base ≤ a.addr ∧ a.addr < s.cfg.base + windowBytes)

/-- The access falls in the LMEM region (R48). -/
def inLmem (s : State) (a : Access) : Bool :=
  inWindow s a && decide (s.cfg.base + lmemOffset ≤ a.addr) &&
    decide (a.addr < s.cfg.base + lmemOffset + s.cfg.lmemBytes)

/-- "While BUSY = 1, a host access to the LMEM region does not complete" (R71). -/
def stalled (s : State) (a : Access) : Bool := s.status.busy && inLmem s a

/-- One host access that does not wait. An address outside the window does not select this core, which
then does nothing and answers nothing (log entry 6). -/
def busAccess (a : Access) (s : State) : State :=
  if inWindow s a then
    if a.addr - s.cfg.base < lmemOffset then regAccess a (a.addr - s.cfg.base) s
    else if inLmem s a then lmemAccess a (a.addr - s.cfg.base - lmemOffset) s
    else answer .busError s
  else { s with resp := none }

end Sys2Proof.Machine
end

