-- ==== Sys2Proof/Machine/Operands.lean ====
section
/-! DEFINITION. Reading a command's operands: the selector S(sel), the checks on it in the order of
precedence, and the buffer that LOAD, STORE and STOREP address (spec/00_scope.md R17;
spec/30_encoding.md R84; spec/44_serialize.md R150; spec/60_exceptions.md R206, R209, R210). -/

namespace Sys2Proof.Machine

/-- S(sel): the value of a register or a constant, or the error its selector fails with (R17, R84). -/
def readSrc (s : State) : Src → Except ErrCode Nat
  | .reg i => if (s.breg[i]).valid then .ok (s.breg[i]).value else .error .uninit
  | .const k => .ok k.val
  | .reserved _ => .error .illegalOperand

/-- A command with one source: ILLEGAL_OPERAND, then UNINIT, then the command itself (R206). -/
def withSrc (s : State) (sa : Src) (k : Nat → CmdOutcome) : CmdOutcome :=
  if sa.legal then
    match readSrc s sa with
    | .ok a => k a
    | .error c => .error c
  else .error .illegalOperand

/-- A command with two sources: every selector is checked before any register is read (R206). -/
def withSrcs (s : State) (sa sb : Src) (k : Nat → Nat → CmdOutcome) : CmdOutcome :=
  if sa.legal && sb.legal then
    match readSrc s sa, readSrc s sb with
    | .ok a, .ok b => k a b
    | .error c, _ => .error c
    | .ok _, .error c => .error c
  else .error .illegalOperand

/-- A command with three sources (MODPOW), checked the same way (R206). -/
def withSrcs3 (s : State) (sa sb sc : Src) (k : Nat → Nat → Nat → CmdOutcome) : CmdOutcome :=
  if sc.legal then
    withSrcs s sa sb fun a b =>
      match readSrc s sc with
      | .ok c => k a b c
      | .error c => .error c
  else .error .illegalOperand

/-- ARG0 as a command uses it: the latched A0L, an unsigned number (R50, R87). -/
def argOffset (s : State) : Nat := s.a0l.toNat

/-- ARG1 as a command uses it: the latched A1L, an unsigned number (R50, R87). -/
def argLength (s : State) : Nat := s.a1l.toNat

/-- check_buffer(o, n), the sum without wrap-around (R150). -/
def withBuffer (s : State) (k : Nat → Nat → CmdOutcome) : CmdOutcome :=
  if argOffset s % 4 ≠ 0 then .error .address
  else if argLength s % 4 ≠ 0 then .error .badLength
  else if argOffset s + argLength s > s.cfg.lmemBytes then .error .address
  else k (argOffset s) (argLength s)

/-- The writes of a command with one bigint result v: B[rd] <- v and Z <- (v = 0) (R47). -/
def writeDst (rd : RegNo) (v : Nat) : Writes := { dst := [(rd, v)], z := some (zeroFlag v) }

/-- A result that must fit in MAXL limbs, else CAPACITY (R214). -/
def fitting (s : State) (rd : RegNo) (v : Nat) : CmdOutcome :=
  if len v > s.cfg.maxl then .error .capacity else .ok (writeDst rd v)

end Sys2Proof.Machine
end

