-- ==== Sys2Proof/Machine/Arith.lean ====
section
/-! DEFINITION. ADD, SUB, MUL, DIV, QUO, MOD (spec/41_add_sub.md, spec/42_multiply.md,
spec/43_divide.md), on the exact values their rules state. -/

namespace Sys2Proof.Machine

/-- ADD: the exact sum, CAPACITY beyond MAXL limbs (R121). -/
def execAdd (rd : RegNo) (sa sb : Src) (s : State) : Host.Outcome State Fault Refusal :=
  .next (complete (withSrcs s sa sb fun a b => fitting s rd (a + b)) s)

/-- SUB: a - b, NEGATIVE if b > a (R123). -/
def execSub (rd : RegNo) (sa sb : Src) (s : State) : Host.Outcome State Fault Refusal :=
  .next (complete (withSrcs s sa sb fun a b =>
    if b > a then .error .negative else .ok (writeDst rd (a - b))) s)

/-- MUL: the exact product, CAPACITY beyond MAXL limbs (R131). -/
def execMul (rd : RegNo) (sa sb : Src) (s : State) : Host.Outcome State Fault Refusal :=
  .next (complete (withSrcs s sa sb fun a b => fitting s rd (a * b)) s)

/-- The quotient of the division commands; a zero divisor gives 0 (R141, R142, R205). -/
def quotient (a b : Nat) : Nat := if b = 0 then 0 else a / b

/-- The remainder of the division commands; a zero divisor gives the dividend (R141, R143, R205). -/
def remainder (a b : Nat) : Nat := if b = 0 then a else a % b

/-- DIV: quotient to rd, remainder to re, Z from the remainder; rd = re is ILLEGAL_OPERAND, which comes
before UNINIT (R141, R206, R209). -/
def execDiv (rd re : RegNo) (sa sb : Src) (s : State) : Host.Outcome State Fault Refusal :=
  .next (complete (if rd = re then .error .illegalOperand else withSrcs s sa sb fun a b =>
    .ok { dst := [(rd, quotient a b), (re, remainder a b)]
          z := some (zeroFlag (remainder a b)) }) s)

/-- QUO: quotient only, Z from it (R142). -/
def execQuo (rd : RegNo) (sa sb : Src) (s : State) : Host.Outcome State Fault Refusal :=
  .next (complete (withSrcs s sa sb fun a b => .ok (writeDst rd (quotient a b))) s)

/-- MOD: remainder only, Z from it (R143). -/
def execMod (rd : RegNo) (sa sb : Src) (s : State) : Host.Outcome State Fault Refusal :=
  .next (complete (withSrcs s sa sb fun a b => .ok (writeDst rd (remainder a b))) s)

end Sys2Proof.Machine
end

