-- ==== Sys2Proof/Machine/ConstructCompare.lean ====
section
/-! DEFINITION. NOP, MOVI, MOV, CMP, TSTZ, LEN (spec/40_construct_compare.md). Each meaning is the
completion step with the command's own outcome. -/

namespace Sys2Proof.Machine

/-- NOP: no write; the accept and complete steps still run (R100). -/
def execNop (s : State) : Host.Outcome State Fault Refusal := .next (complete (.ok {}) s)

/-- MOVI: B[rd] <- zext(ARG0); Z (R101). -/
def execMovi (rd : RegNo) (s : State) : Host.Outcome State Fault Refusal :=
  .next (complete (.ok (writeDst rd s.a0l.toNat)) s)

/-- MOV: B[rd] <- S(sa); Z (R102). -/
def execMov (rd : RegNo) (sa : Src) (s : State) : Host.Outcome State Fault Refusal :=
  .next (complete (withSrc s sa fun a => .ok (writeDst rd a)) s)

/-- CMP: LT, EQ, GT and RESULT from the order of S(sa) and S(sb) (R103). -/
def execCmp (sa sb : Src) (s : State) : Host.Outcome State Fault Refusal :=
  .next (complete (withSrcs s sa sb fun a b =>
    .ok { order := some (compare a b), result := some (orderWord (compare a b)) }) s)

/-- TSTZ: Z <- (a = 0); RESULT <- 1 if a = 0 else 0 (R104). -/
def execTstz (sa : Src) (s : State) : Host.Outcome State Fault Refusal :=
  .next (complete (withSrc s sa fun a =>
    .ok { z := some (zeroFlag a), result := some (if a = 0 then 1 else 0) }) s)

/-- LEN: RESULT <- len(a); Z <- (len(a) = 0) (R105). -/
def execLen (sa : Src) (s : State) : Host.Outcome State Fault Refusal :=
  .next (complete (withSrc s sa fun a =>
    .ok { z := some (zeroFlag (len a)), result := some (zext32 (len a)) }) s)

end Sys2Proof.Machine
end

