-- ==== Sys2Proof/Machine/Engines.lean ====
section
/-! DEFINITION. The units' algorithms, as the spec writes them. The commands GCD, MODINV, MODPOW and
JACOBI take their results from the engines of this file; ADD, SUB, MUL and the divisions are stated on
exact values, which the limb datapaths here compute (spec/41_add_sub.md R120, R122;
spec/42_multiply.md R130; spec/43_divide.md R140; spec/45_modular.md R166, R168, R171;
spec/46_jacobi.md R187). Each loop runs on a fuel that its own measure bounds, so it never runs out. -/

namespace Sys2Proof.Machine

/-! ### Limb adder and subtractor -/

/-- The ripple-carry loop from limb i, `n` limbs to go, carry c; the last limb is the final carry
(R120). -/
def rippleCarry (a b : Nat) : Nat → Nat → Nat → List Nat
  | 0, _, c => [c]
  | n + 1, i, c =>
    let t := limb a i + limb b i + c
    t % limbBase :: rippleCarry a b n (i + 1) (t / limbBase)

/-- The limbs s_0 .. s_n of a sum, n = max(len(a), len(b)) (R120). -/
def adderLimbs (a b : Nat) : List Nat := rippleCarry a b (max (len a) (len b)) 0 0

/-- The ripple-borrow loop from limb i with borrow br: the limbs, and the final borrow (R122). -/
def rippleBorrow (a b : Nat) : Nat → Nat → Nat → List Nat × Nat
  | 0, _, br => ([], br)
  | n + 1, i, br =>
    if limb a i < limb b i + br then
      let rest := rippleBorrow a b n (i + 1) 1
      ((limb a i + limbBase - (limb b i + br)) :: rest.1, rest.2)
    else
      let rest := rippleBorrow a b n (i + 1) 0
      ((limb a i - (limb b i + br)) :: rest.1, rest.2)

/-- The limbs d_0 .. d_{n-1} of a difference and the final borrow, n = max(len(a), len(b)) (R122). -/
def subtractorLimbs (a b : Nat) : List Nat × Nat := rippleBorrow a b (max (len a) (len b)) 0 0

/-! ### Schoolbook multiplier -/

/-- One pass of the inner loop: add x · (the limbs of b) into the work array from its first limb on,
with the 32-bit carry limb c, which the pass leaves in the limb after the last (R130). -/
def mulRow (x : Nat) : List Nat → List Nat → Nat → List Nat
  | [], _ :: ps, c => c :: ps
  | [], [], c => [c]
  | y :: ys, p :: ps, c =>
    let t := x * y + p + c
    t % limbBase :: mulRow x ys ps (t / limbBase)
  | y :: ys, [], c =>
    let t := x * y + c
    t % limbBase :: mulRow x ys [] (t / limbBase)

/-- The outer loop over the limbs of a: after each pass the array's first limb is final (R130). -/
def mulRows : List Nat → List Nat → List Nat → List Nat
  | [], _, p => p
  | x :: xs, ys, p =>
    match mulRow x ys p 0 with
    | [] => []
    | q :: qs => q :: mulRows xs ys qs

/-- The work array p[0 .. m+n-1] of a product, m = len(a), n = len(b) (R130). -/
def multiplierLimbs (a b : Nat) : List Nat :=
  mulRows (limbs a (len a)) (limbs b (len b)) (List.replicate (len a + len b) 0)

/-! ### Long division -/

/-- The single-limb fast path, from limb i-1 of a down to limb 0: quotient and remainder (R140). -/
def shortDivide (a d : Nat) : Nat → Nat → Nat × Nat
  | 0, r => (0, r)
  | i + 1, r =>
    let t := r * limbBase + limb a i
    let rest := shortDivide a d i (t % d)
    (t / d * limbBase ^ i + rest.1, rest.2)

/-- The correction of the estimate: while rhat < 2^32 and the two-limb test fails, qhat <- qhat - 1 and
rhat <- rhat + v_{n-1} (R140). The fuel 2^32 bounds it because v_{n-1} is at least 1. -/
def correctEstimate (vTop vNext uNext : Nat) : Nat → Nat → Nat → Nat
  | 0, qhat, _ => qhat
  | fuel + 1, qhat, rhat =>
    if rhat < limbBase ∧ (limbBase ≤ qhat ∨ rhat * limbBase + uNext < qhat * vNext) then
      correctEstimate vTop vNext uNext fuel (qhat - 1) (rhat + vTop)
    else qhat

/-- The quotient digit at position j of the shifted dividend u: estimate from two limbs, correct, and
step down once if the trial product overshoots the window of n + 1 limbs (R140). -/
def quotientDigit (u v n j : Nat) : Nat :=
  let vTop := limb v (n - 1)
  let num := limb u (j + n) * limbBase + limb u (j + n - 1)
  let qhat := correctEstimate vTop (limb v (n - 2)) (limb u (j + n - 2)) limbBase
    (num / vTop) (num % vTop)
  let window := u / limbBase ^ j % limbBase ^ (n + 1)
  if window < qhat * v then qhat - 1 else qhat

/-- The loop over output positions j-1 down to 0. Writing W - qhat·v back into u_j .. u_{j+n} is
subtracting (qhat·v) · 2^(32·j) from u (R140). -/
def longDivideLoop (v n : Nat) : Nat → Nat → Nat × Nat
  | 0, u => (0, u)
  | j + 1, u =>
    let q := quotientDigit u v n j
    let rest := longDivideLoop v n j (u - q * v * limbBase ^ j)
    (q * limbBase ^ j + rest.1, rest.2)

/-- The number of leading zero bits of a non-zero limb (R140). -/
def leadingZeros (l : Nat) : Nat := 31 - Nat.log2 l

/-- divmod(a, b) for b > 0 (R140). -/
def divmod (a b : Nat) : Nat × Nat :=
  if a < b then (0, a)
  else if len b = 1 then shortDivide a (limb b 0) (len a) 0
  else
    let s := leadingZeros (limb b (len b - 1))
    let qr := longDivideLoop (b * 2 ^ s) (len b) (len a - len b + 1) (a * 2 ^ s)
    (qr.1, qr.2 / 2 ^ s)

/-! ### Euclid, inverse, power -/

/-- while y != 0: (x, y) <- (y, x mod y) (R166). -/
def euclidLoop : Nat → Nat → Nat → Nat
  | 0, x, _ => x
  | fuel + 1, x, y => if y = 0 then x else euclidLoop fuel y (x % y)

/-- euclid(a, b); y strictly decreases (R166). -/
def euclid (a b : Nat) : Nat := euclidLoop (b + 1) a b

/-- The loop of the non-negative extended Euclid engine: the last (r0, t0) (R168). -/
def inverseLoop (m : Nat) : Nat → Nat → Nat → Nat → Nat → Nat × Nat
  | 0, r0, _, t0, _ => (r0, t0)
  | fuel + 1, r0, r1, t0, t1 =>
    if r1 = 0 then (r0, t0)
    else
      let c := r0 / r1 * t1 % m
      let t' := if c ≤ t0 then t0 - c else m - (c - t0)
      inverseLoop m fuel r1 (r0 % r1) t1 t'

/-- inverse(a, m) for m >= 2; none is NOT_INVERTIBLE (R168). -/
def inverse (a m : Nat) : Option Nat :=
  match inverseLoop m (m + 1) m (a % m) 0 1 with
  | (r0, t0) => if r0 = 1 then some t0 else none

/-- The square-and-multiply loop, low bit of the exponent first (R171). -/
def modpowLoop (m : Nat) : Nat → Nat → Nat → Nat → Nat
  | 0, acc, _, _ => acc
  | fuel + 1, acc, p, x =>
    if x = 0 then acc
    else modpowLoop m fuel (if x % 2 = 1 then acc * p % m else acc) (p * p % m) (x / 2)

/-- modpow(b, e, m) for m >= 1; e = 0 gives 1 unreduced (R171). -/
def modpow (b e m : Nat) : Nat := modpowLoop m (e + 1) 1 b e

/-! ### Jacobi -/

/-- Factor the powers of two out of a, flipping the sign when n mod 8 is 3 or 5 (R187). -/
def stripTwos (n : Nat) : Nat → Nat → Int → Nat × Int
  | 0, a, t => (a, t)
  | fuel + 1, a, t =>
    if a % 2 = 0 then stripTwos n fuel (a / 2) (if n % 8 = 3 ∨ n % 8 = 5 then -t else t)
    else (a, t)

/-- The loop of the binary evaluator: strip, swap, flip by reciprocity, reduce (R187). -/
def jacobiLoop : Nat → Nat → Nat → Int → Int
  | 0, _, n, t => if n = 1 then t else 0
  | fuel + 1, a, n, t =>
    if a = 0 then (if n = 1 then t else 0)
    else
      match stripTwos n a a t with
      | (a', t') => jacobiLoop fuel (n % a') a' (if n % 4 = 3 ∧ a' % 4 = 3 then -t' else t')

/-- jacobi(a, n) for odd n >= 1; n strictly decreases (R187). -/
def jacobi (a n : Nat) : Int := jacobiLoop (n + 1) (a % n) n 1

end Sys2Proof.Machine
end

