-- ==== Sys2Proof/Machine/NumberTheory.lean ====
section
/-! DEFINITION. GCD, MODINV, MODPOW, JACOBI, each by its unit's engine (spec/45_modular.md,
spec/46_jacobi.md). -/

namespace Sys2Proof.Machine

/-- GCD: the Euclid engine's result; a zero operand is no error (R165, R205). -/
def execGcd (rd : RegNo) (sa sb : Src) (s : State) : Host.Outcome State Fault Refusal :=
  .next (complete (withSrcs s sa sb fun a b => .ok (writeDst rd (euclid a b))) s)

/-- MODINV: DOMAIN for a modulus 0 or 1, then NOT_INVERTIBLE, else the inverse in [0, m) (R167). -/
def execModinv (rd : RegNo) (sa sb : Src) (s : State) : Host.Outcome State Fault Refusal :=
  .next (complete (withSrcs s sa sb fun a m =>
    if m < 2 then .error .domain
    else match inverse a m with
      | none => .error .notInvertible
      | some x => .ok (writeDst rd x)) s)

/-- MODPOW: DOMAIN for a modulus 0; e = 0 gives 1 for every other modulus, 1 included (R170). -/
def execModpow (rd : RegNo) (sa sb sc : Src) (s : State) : Host.Outcome State Fault Refusal :=
  .next (complete (withSrcs3 s sa sb sc fun b e m =>
    if m = 0 then .error .domain else .ok (writeDst rd (modpow b e m))) s)

/-- The destination's form of a Jacobi symbol: -1 is written as n - 1 (R186). -/
def jacobiDst (j : Int) (n : Nat) : Nat := if j = -1 then n - 1 else j.toNat

/-- JACOBI: DOMAIN for n zero or even; RESULT <- tc32(j); B[rd]; Z <- (j = 0) (R186). -/
def execJacobi (rd : RegNo) (sa sb : Src) (s : State) : Host.Outcome State Fault Refusal :=
  .next (complete (withSrcs s sa sb fun a n =>
    if n = 0 ∨ n % 2 = 0 then .error .domain
    else .ok { dst := [(rd, jacobiDst (jacobi a n) n)]
               z := some (jacobi a n == 0)
               result := some (tc32 (jacobi a n)) }) s)

end Sys2Proof.Machine
end

