-- ==== Sys2Proof/Machine/Serialize.lean ====
section
/-! DEFINITION. LOAD, STORE, STOREP: bigints to and from LMEM in little-endian bytes
(spec/44_serialize.md). -/

namespace Sys2Proof.Machine

/-- The canonical byte length 4 · len(v) (R68). -/
def byteLen (v : Nat) : Nat := 4 * len v

/-- LOAD: deserialise ARG1 bytes at ARG0; CAPACITY only for a canonical value over MAXL limbs (R151). -/
def execLoad (rd : RegNo) (s : State) : Host.Outcome State Fault Refusal :=
  .next (complete (withBuffer s fun o n =>
    if len (memRead s.lmem o n) > s.cfg.maxl then .error .capacity
    else .ok { writeDst rd (memRead s.lmem o n) with
                result := some (zext32 (byteLen (memRead s.lmem o n))) }) s)

/-- STORE: write exactly the 4 · len(v) bytes of v; the rest of the buffer is unchanged (R152). -/
def execStore (sa : Src) (s : State) : Host.Outcome State Fault Refusal :=
  .next (complete (withSrc s sa fun v => withBuffer s fun o n =>
    if byteLen v > n then .error .bufferTooSmall
    else .ok { mem := some ⟨o, byteLen v, v⟩, result := some (zext32 (byteLen v)) }) s)

/-- STOREP: write exactly ARG1 bytes, zero above the value; RESULT is still 4 · len(v) (R153). -/
def execStorep (sa : Src) (s : State) : Host.Outcome State Fault Refusal :=
  .next (complete (withSrc s sa fun v => withBuffer s fun o n =>
    if byteLen v > n then .error .bufferTooSmall
    else .ok { mem := some ⟨o, n, v⟩, result := some (zext32 (byteLen v)) }) s)

end Sys2Proof.Machine
end

