-- ==== Sys2Proof/Machine/Dispatch.lean ====
section
/-! DEFINITION. One arm per command: its completion step (spec/10_state.md R62). -/

namespace Sys2Proof.Machine

/-- The completion step of a decoded command. -/
def exec (i : Instr) (s : State) : Host.Outcome State Fault Refusal :=
  match i with
  | .nop => Sys2Proof.Machine.execNop s
  | .movi rd => Sys2Proof.Machine.execMovi rd s
  | .mov rd sa => Sys2Proof.Machine.execMov rd sa s
  | .cmp sa sb => Sys2Proof.Machine.execCmp sa sb s
  | .tstz sa => Sys2Proof.Machine.execTstz sa s
  | .len sa => Sys2Proof.Machine.execLen sa s
  | .add rd sa sb => Sys2Proof.Machine.execAdd rd sa sb s
  | .sub rd sa sb => Sys2Proof.Machine.execSub rd sa sb s
  | .mul rd sa sb => Sys2Proof.Machine.execMul rd sa sb s
  | .div rd re sa sb => Sys2Proof.Machine.execDiv rd re sa sb s
  | .quo rd sa sb => Sys2Proof.Machine.execQuo rd sa sb s
  | .mod rd sa sb => Sys2Proof.Machine.execMod rd sa sb s
  | .load rd => Sys2Proof.Machine.execLoad rd s
  | .store sa => Sys2Proof.Machine.execStore sa s
  | .storep sa => Sys2Proof.Machine.execStorep sa s
  | .gcd rd sa sb => Sys2Proof.Machine.execGcd rd sa sb s
  | .modinv rd sa sb => Sys2Proof.Machine.execModinv rd sa sb s
  | .modpow rd sa sb sc => Sys2Proof.Machine.execModpow rd sa sb sc s
  | .jacobi rd sa sb => Sys2Proof.Machine.execJacobi rd sa sb s

end Sys2Proof.Machine
end

