-- ==== Sys2Proof/Machine/Turn.lean ====
section
/-! DEFINITION. The two agents' turns: the core's completion step, which is where the command word is
decoded, and one input from outside (spec/10_state.md R61, R62; spec/20_memory.md R71;
spec/30_encoding.md R90; spec/70_reset_and_hazards.md R230). -/

namespace Sys2Proof.Machine

/-- The completion step for the command in CUR: decode it, then run it or fail it (R62, R90). -/
def completeCurrent (s : State) : Host.Outcome State Fault Refusal :=
  match decode s.cur with
  | .ok i => exec i s
  | .error c => .next (complete (.error c) s)

/-- The core's turn. With BUSY = 1 it completes the command; idle, or held in reset, nothing changes
(R62, R229, R230). -/
def coreTurn (s : State) : Host.Outcome State Fault Refusal :=
  if s.status.busy && !s.rst then completeCurrent s else .next s

/-- Take the oldest input; `rest` are those after it. A host access to LMEM while a command runs waits:
the completion step comes first and the access stays where it is (R71). An access to the window while
RST is asserted is outside the contract (R230, U4). DEDUCED: log entries 6, 9, 10 and 11. -/
def takeInput (i : Input) (rest : List Input) (s : State) : Host.Outcome State Fault Refusal :=
  match i with
  | .core => coreTurn { s with inputs := rest }
  | .bus a =>
    if s.rst && inWindow s a then .refused .accessDuringReset
    else if stalled s a then completeCurrent s
    else .next (busAccess a { s with inputs := rest })
  | .rstAssert => .next { s with inputs := rest, rst := true }
  | .rstRelease draw =>
    if s.rst then .next (hardReset draw { s with inputs := rest })
    else .next { s with inputs := rest }

/-- Place a command word as if the host had written it to CMD with the core idle and out of reset, and
make the core's completion step the next event. -/
def placeCommand (w : Word) (s : State) : State :=
  { s with cur := w, a0l := s.arg0, a1l := s.arg1,
           status := { s.status with busy := true, done := false },
           rst := false, inputs := .core :: s.inputs }

end Sys2Proof.Machine
end

