-- ==== Sys2Proof/Machine/Step.lean ====
section
/-! DEFINITION. One step of the machine: the oldest input, or with none left the core's own turn, so a
running command completes (spec/70_reset_and_hazards.md R235, R236; log entry 3). -/

namespace Sys2Proof.Machine

/-- One step. -/
def step (s : State) : Host.Outcome State Fault Refusal :=
  match s.inputs with
  | [] => coreTurn s
  | i :: rest => takeInput i rest s

/-- `s` with a command word accepted, so that the very next step decodes and runs it. The core fetches no
instructions (R46): this stands for the host's write to CMD (log entry 7). -/
def State.withFetchWord (s : State) (nbits w : Nat) : State := placeCommand (tableWord nbits w) s

end Sys2Proof.Machine
end

