-- ==== Sys2Proof/Safety.lean ====
section
/-! DEFINITION. The terms claims are stated in: what a source names, what a command that succeeds or
fails leaves alone, the machine's invariant, a run that keeps the bus contract, and the end of a run
(spec/10_state.md R40 to R62; spec/60_exceptions.md R200 to R206; spec/70_reset_and_hazards.md R236,
R239). None of these is used by the step. -/

namespace Sys2Proof.Machine

/-- The source names a readable operand with value v: a valid register holding v, or the constant v
(R42, R43, R84). -/
def Operand (s : State) : Src → Nat → Prop
  | .reg i, v => (s.breg[i]).valid = true ∧ (s.breg[i]).value = v
  | .const k, v => v = k.val
  | .reserved _, _ => False

/-- The source is a register that nothing has written since reset (R42). -/
def Uninit (s : State) : Src → Prop
  | .reg i => (s.breg[i]).valid = false
  | .const _ => False
  | .reserved _ => False

/-- The value fits in a register of MAXL limbs: v < 2^(32·MAXL) (R8). -/
def Fits (s : State) (v : Nat) : Prop := v < 2 ^ (32 * s.cfg.maxl)

/-- What no completion touches: the parameters, ARG0, ARG1, CTRL, the command in flight and its latched
arguments, OVR, the RST level, the pending inputs and the last bus answer (R50, R55, R56, R61). -/
structure SameControl (s t : State) : Prop where
  cfg : t.cfg = s.cfg
  arg0 : t.arg0 = s.arg0
  arg1 : t.arg1 = s.arg1
  ie : t.ie = s.ie
  cur : t.cur = s.cur
  a0l : t.a0l = s.a0l
  a1l : t.a1l = s.a1l
  ovr : t.status.ovr = s.status.ovr
  rst : t.rst = s.rst
  inputs : t.inputs = s.inputs
  resp : t.resp = s.resp

/-- Every register but those listed keeps its value and its valid bit. -/
def SameRegsBut (l : List RegNo) (s t : State) : Prop :=
  ∀ i : RegNo, i ∉ l → t.breg[i] = s.breg[i]

/-- Every byte of LMEM reads as before. -/
def SameMem (s t : State) : Prop := ∀ a, t.lmem.read a = s.lmem.read a

/-- LT, EQ and GT are unchanged. -/
def SameOrder (s t : State) : Prop :=
  t.status.lt = s.status.lt ∧ t.status.eq = s.status.eq ∧ t.status.gt = s.status.gt

/-- The command completed with success: BUSY = 0, DONE = 1, ERR = 0, ERRCODE = 0, CMDCNT one up, ERRCMD
and all of SameControl unchanged (R62). Registers, LMEM, RESULT and flags are said beside it. -/
structure Succeeded (s t : State) : Prop where
  busy : t.status.busy = false
  done : t.status.done = true
  err : t.status.err = false
  errcode : t.status.errcode = 0x00
  errcmd : t.errcmd = s.errcmd
  cmdcnt : t.cmdcnt = s.cmdcnt + 1
  control : SameControl s t

/-- The command completed with error code c: ERR = 1, ERRCODE = c, ERRCMD the failing word, and no
register, valid bit, LMEM byte, RESULT or flag changed (R62, R202, R203). -/
structure FailedWith (c : BitVec 8) (s t : State) : Prop where
  busy : t.status.busy = false
  done : t.status.done = true
  err : t.status.err = true
  errcode : t.status.errcode = c
  errcmd : t.errcmd = s.cur
  cmdcnt : t.cmdcnt = s.cmdcnt + 1
  control : SameControl s t
  regs : SameRegsBut [] s t
  mem : SameMem s t
  result : t.result = s.result
  z : t.status.z = s.status.z
  order : SameOrder s t

/-- A success that writes v to rd and Z from v and nothing else, RESULT aside (R44, R47). -/
structure WroteReg (rd : RegNo) (v : Nat) (s t : State) : Prop where
  succeeded : Succeeded s t
  value : t.breg[rd] = ⟨v, true⟩
  others : SameRegsBut [rd] s t
  z : t.status.z = true ↔ v = 0
  order : SameOrder s t
  mem : SameMem s t

/-- The machine's invariant: legal parameters; every register value fits; LMEM canonical and inside
0 .. LMEM_BYTES-1; ERRCODE one of 0x00..0x0A (U13), non-zero exactly when ERR = 1; BUSY and DONE never
both 1; LT, EQ, GT at most one. -/
structure State.Inv (s : State) : Prop where
  cfg : s.cfg.wf
  regs : ∀ i : RegNo, Fits s (s.breg[i]).value
  memForm : s.lmem.wf = true
  memSize : s.lmem.within s.cfg.lmemBytes = true
  errRange : s.status.errcode.toNat ≤ 0x0A
  errAgree : s.status.err = true ↔ s.status.errcode ≠ 0
  busyDone : ¬(s.status.busy = true ∧ s.status.done = true)
  oneOrder : ¬(s.status.lt = true ∧ s.status.eq = true) ∧ ¬(s.status.lt = true ∧ s.status.gt = true) ∧
    ¬(s.status.eq = true ∧ s.status.gt = true)

/-- No host access to the window falls in a time when RST is asserted, the start level being `rst`
(R230, U4). -/
def keepsContract (c : Config) : Bool → List Input → Bool
  | _, [] => true
  | rst, .core :: is => keepsContract c rst is
  | rst, .bus a :: is =>
    !(rst && decide (c.base ≤ a.addr ∧ a.addr < c.base + 2 ^ 25)) && keepsContract c rst is
  | _, .rstAssert :: is => keepsContract c true is
  | _, .rstRelease _ :: is => keepsContract c false is

/-- The end of a host program's run: the host has made its last access and BUSY = 0 (R239). That RST events
and core turns still listed after the last access belong to the run too, so that the whole of `inputs` must
be empty, is the model's: DESIGN CHOICE, log entry 18. -/
def State.finished (s : State) : Prop := s.inputs = [] ∧ s.status.busy = false

/-- What is observable at the end of a run: LMEM, RESULT, STATUS, ERRCMD and CMDCNT (R239). -/
structure Observation where
  lmem : Memory
  result : Word
  status : Word
  errcmd : Word
  cmdcnt : Word
  deriving DecidableEq, Repr

/-- The observation of a state (R239). -/
def State.observe (s : State) : Observation where
  lmem := s.lmem
  result := s.result
  status := s.status.toWord
  errcmd := s.errcmd
  cmdcnt := s.cmdcnt

/-- Two states differ at most in the values of registers that are invalid in both (R42). -/
def SameButInvalid (s t : State) : Prop :=
  t = { s with breg := t.breg } ∧
    ∀ i : RegNo, (t.breg[i]).valid = (s.breg[i]).valid ∧
      ((s.breg[i]).valid = true → (t.breg[i]).value = (s.breg[i]).value)

/-- k is the limb count of v: the least k with v < 2^(32·k) (R15). -/
def LimbCount (v k : Nat) : Prop := v < 2 ^ (32 * k) ∧ ∀ j, j < k → 2 ^ (32 * j) ≤ v

/-! The columns of R44, "which commands read and write operands", read for what a success writes; the
destinations are `Instr.dsts`. -/

/-- The commands that write Z: those of R47, every success with a bigint destination, TSTZ and LEN. R44's
rows of MOVI and MOV do not name Z; R47, R101 and R102 do. -/
def writesZ : Instr → Bool
  | .nop => false
  | .movi _ => true
  | .mov _ _ => true
  | .cmp _ _ => false
  | .tstz _ => true
  | .len _ => true
  | .add _ _ _ => true
  | .sub _ _ _ => true
  | .mul _ _ _ => true
  | .div _ _ _ _ => true
  | .quo _ _ _ => true
  | .mod _ _ _ => true
  | .load _ => true
  | .store _ => false
  | .storep _ => false
  | .gcd _ _ _ => true
  | .modinv _ _ _ => true
  | .modpow _ _ _ _ => true
  | .jacobi _ _ _ => true

/-- The commands that write RESULT (R44, R57). -/
def writesResult : Instr → Bool
  | .nop => false
  | .movi _ => false
  | .mov _ _ => false
  | .cmp _ _ => true
  | .tstz _ => true
  | .len _ => true
  | .add _ _ _ => false
  | .sub _ _ _ => false
  | .mul _ _ _ => false
  | .div _ _ _ _ => false
  | .quo _ _ _ => false
  | .mod _ _ _ => false
  | .load _ => true
  | .store _ => true
  | .storep _ => true
  | .gcd _ _ _ => false
  | .modinv _ _ _ => false
  | .modpow _ _ _ _ => false
  | .jacobi _ _ _ => true

/-- LT, EQ and GT are written by CMP alone (R44, R47). -/
def writesOrder (i : Instr) : Prop := ∃ sa sb, i = .cmp sa sb

/-- LMEM is written by STORE and STOREP alone (R44). -/
def writesMem (i : Instr) : Prop := ∃ sa, i = .store sa ∨ i = .storep sa

/-- The accesses the window allows (R69): aligned 32-bit in the register block, naturally aligned 8-, 16-
and 32-bit in LMEM; `off` is the offset from BASE. -/
def permitted (c : Config) (a : Access) (off : Nat) : Prop :=
  (a.kind = .read ∨ a.kind = .write) ∧
    ((off < 0x1000 ∧ a.bytes = 4 ∧ off % 4 = 0) ∨
      (0x1000 ≤ off ∧ off < 0x1000 + c.lmemBytes ∧
        (a.bytes = 1 ∨ a.bytes = 2 ∨ a.bytes = 4) ∧ off % a.bytes = 0))

/-- The next input is this host access, RST is released, and the access does not wait. -/
structure HostTurn (s : State) (a : Access) (rest : List Input) : Prop where
  next : s.inputs = .bus a :: rest
  rst : s.rst = false
  idle : s.status.busy = false ∨
    ¬(s.cfg.base + 0x1000 ≤ a.addr ∧ a.addr < s.cfg.base + 0x1000 + s.cfg.lmemBytes)

/-- The next input is a host write of d, 32 bits, to the register at offset off. -/
def NextWrites (s : State) (off : Nat) (d : Word) : Prop :=
  ∃ rest, s.inputs = .bus ⟨.write, 4, s.cfg.base + off, d⟩ :: rest

end Sys2Proof.Machine
end

