-- ==== Sys2Proof/Table.lean ====
section
/-! DEFINITION. spec/opcode_table.json as data, copied from it by match and mask, for claims that hold the
decoder against the table. The machine does not use it. -/

namespace Sys2Proof

/-- A row: its match and mask, the low bit of each source field its form uses, and whether its form has
the second destination re. -/
structure OpcodeRow where
  pattern : Word
  mask : Word
  srcs : List Nat
  hasRe : Bool
  deriving DecidableEq, Repr

/-- The word is one of the row's. -/
def OpcodeRow.matchesWord (r : OpcodeRow) (w : Word) : Bool := w &&& r.mask == r.pattern

/-- The rows in the table's order, NOP to LEN, ADD to MOD, LOAD to STOREP, GCD to JACOBI. -/
def opcodeRows : List OpcodeRow := [
  ⟨0x00000000, 0xFFFFFFFF, [], false⟩,
  ⟨0x04000000, 0xFC3FFFFF, [], false⟩,
  ⟨0x08000000, 0xFC3C0FFF, [12], false⟩,
  ⟨0x0C000000, 0xFFFC003F, [12, 6], false⟩,
  ⟨0x10000000, 0xFFFC0FFF, [12], false⟩,
  ⟨0x14000000, 0xFFFC0FFF, [12], false⟩,
  ⟨0x20000000, 0xFC3C003F, [12, 6], false⟩,
  ⟨0x24000000, 0xFC3C003F, [12, 6], false⟩,
  ⟨0x28000000, 0xFC3C003F, [12, 6], false⟩,
  ⟨0x30000000, 0xFC00003F, [12, 6], true⟩,
  ⟨0x34000000, 0xFC3C003F, [12, 6], false⟩,
  ⟨0x38000000, 0xFC3C003F, [12, 6], false⟩,
  ⟨0x40000000, 0xFC3FFFFF, [], false⟩,
  ⟨0x44000000, 0xFFFC0FFF, [12], false⟩,
  ⟨0x48000000, 0xFFFC0FFF, [12], false⟩,
  ⟨0x60000000, 0xFC3C003F, [12, 6], false⟩,
  ⟨0x64000000, 0xFC3C003F, [12, 6], false⟩,
  ⟨0x68000000, 0xFC3C0000, [12, 6, 0], false⟩,
  ⟨0x6C000000, 0xFC3C003F, [12, 6], false⟩
]

end Sys2Proof
end

