-- ==== Sys2Proof/Certificates/Slice0/Obligations.lean ====
section
/-! DEFINITION. The statements for the provers. Each docstring names the rules of spec/ it formalises;
the terms they share are in Sys2Proof/Safety.lean. `exec i s` is the completion step of command i. -/

open Sys2Proof Sys2Proof.Machine

/-! ### Encoding -/

/-- Decode and encode agree: a legal command's word decodes to it with every operand, and a word that
decodes to a command is that command's one word (R81, R85, R86, R90). -/
def Obligations.DecodeAndEncodeAgree : Prop :=
  (∀ i : Instr, i.wf = true → decode (encode i) = .ok i) ∧
  (∀ (w : Word) (i : Instr), decode w = .ok i → i.wf = true ∧ encode i = w)

/-- The two decode errors, read off the opcode table: ILLEGAL_ENCODING exactly for a word of no row;
ILLEGAL_OPERAND exactly for a word of a row with a used source field above 0x20, or with rd = re where
the row has re (R86, R89, R90). -/
def Obligations.DecodeErrorsFollowOpcodeTable : Prop :=
  ∀ w : Word,
    (decode w = .error .illegalEncoding ↔ ∀ r ∈ opcodeRows, r.matchesWord w = false) ∧
    (decode w = .error .illegalOperand ↔ ∃ r ∈ opcodeRows, r.matchesWord w = true ∧
      ((∃ lo ∈ r.srcs, 0x20 < field w lo 6) ∨ (r.hasRe = true ∧ field w 22 4 = field w 18 4)))

/-- No word is a word of two rows of the opcode table (R86: one match/mask pair an opcode). -/
def Obligations.OpcodeRowsAreDisjoint : Prop :=
  opcodeRows.Pairwise fun r r' => ∀ w : Word, ¬(r.matchesWord w = true ∧ r'.matchesWord w = true)

/-- Words written out from the field layout decode to their commands (R81, R84, R88, R91). -/
def Obligations.SampleWordsDecode : Prop :=
  decode 0x00000000 = .ok .nop ∧
  decode 0x08420000 = .ok (.mov 1 (.const 16)) ∧
  decode 0x0C000040 = .ok (.cmp (.reg 0) (.reg 1)) ∧
  decode 0x31140040 = .ok (.div 4 5 (.reg 0) (.reg 1)) ∧
  decode 0x44003000 = .ok (.store (.reg 3)) ∧
  decode 0x68400083 = .ok (.modpow 1 (.reg 0) (.reg 2) (.reg 3))

/-! ### The step -/

/-- A step runs the decoded command: with BUSY = 1 and RST released, a step that is the core's turn, that
has no input left, or that meets a host access to LMEM (which waits), is the completion step of the
command CUR decodes to; and a command word placed by withFetchWord is run by the very next step, on the
state it was placed in with the word and the arguments latched (R61, R62, R71, R90). The spec says what the
completion step does, not at which step it comes. The rest is the model's: that it is taken at the input
core, with no input left, and at once where an access waits: DESIGN CHOICE, log entry 3; that an access to
LMEM which R69 does not permit, a fetch or a misaligned one, waits as well: DEDUCED, log entry 11; that
withFetchWord stands for an accepted write to CMD, with RST released: DEDUCED, log entry 7. -/
def Obligations.StepRunsDecodedCommand : Prop :=
  (∀ (s : State) (i : Instr), s.status.busy = true → s.rst = false → decode s.cur = .ok i →
    (s.inputs = [] → step s = exec i s) ∧
    (∀ rest, s.inputs = .core :: rest → step s = exec i { s with inputs := rest }) ∧
    (∀ a rest, s.inputs = .bus a :: rest → s.cfg.base + 0x1000 ≤ a.addr →
      a.addr < s.cfg.base + 0x1000 + s.cfg.lmemBytes → s.cfg.lmemBytes ≤ 2 ^ 24 →
      step s = exec i s)) ∧
  (∀ (s : State) (nbits w : Nat) (i : Instr), decode (BitVec.ofNat 32 (w % 2 ^ nbits)) = .ok i →
    step (s.withFetchWord nbits w) = exec i { s with
      cur := BitVec.ofNat 32 (w % 2 ^ nbits), a0l := s.arg0, a1l := s.arg1, rst := false
      status := { s.status with busy := true, done := false } })

/-- A word that does not decode still completes: the core's turn fails it with the code of decode's
error, and changes nothing else (R62, R89, R90, R203, R208). That the input core is the moment of completion
is the model's: DESIGN CHOICE, log entry 3. -/
def Obligations.UndecodableWordFails : Prop :=
  ∀ (s : State) (rest : List Input), s.status.busy = true → s.rst = false →
    s.inputs = .core :: rest →
    (decode s.cur = .error .illegalEncoding →
      ∃ t, step s = .next t ∧ FailedWith 0x01 { s with inputs := rest } t) ∧
    (decode s.cur = .error .illegalOperand →
      ∃ t, step s = .next t ∧ FailedWith 0x02 { s with inputs := rest } t)

/-! ### Construction, copy and comparison -/

/-- NOP completes with success and writes no register, flag, RESULT or LMEM byte (R100). -/
def Obligations.NopOnlyCompletes : Prop :=
  ∀ s : State, ∃ t, exec .nop s = .next t ∧ Succeeded s t ∧ SameRegsBut [] s t ∧ SameMem s t ∧
    t.result = s.result ∧ t.status.z = s.status.z ∧ SameOrder s t

/-- MOVI writes the latched ARG0, zero-extended (R87, R101). -/
def Obligations.MoviWritesLatchedArg : Prop :=
  ∀ (rd : RegNo) (s : State),
    ∃ t, exec (.movi rd) s = .next t ∧ WroteReg rd s.a0l.toNat s t ∧ t.result = s.result

/-- MOV writes the source's value (R102). -/
def Obligations.MovCopiesItsSource : Prop :=
  ∀ (rd : RegNo) (sa : Src) (s : State) (a : Nat), Operand s sa a →
    ∃ t, exec (.mov rd sa) s = .next t ∧ WroteReg rd a s t ∧ t.result = s.result

/-- CMP sets exactly one of LT, EQ, GT and RESULT to -1, 0 or 1 in two's complement; Z, registers and
LMEM are unchanged (R47, R103). -/
def Obligations.CmpOrdersItsSources : Prop :=
  ∀ (sa sb : Src) (s : State) (a b : Nat), Operand s sa a → Operand s sb b →
    ∃ t, exec (.cmp sa sb) s = .next t ∧ Succeeded s t ∧ SameRegsBut [] s t ∧ SameMem s t ∧
      t.status.z = s.status.z ∧
      (t.status.lt = true ↔ a < b) ∧ (t.status.eq = true ↔ a = b) ∧ (t.status.gt = true ↔ b < a) ∧
      t.result = (if a < b then 0xFFFFFFFF else if a = b then 0x00000000 else 0x00000001)

/-- TSTZ sets Z and RESULT from whether the source is zero; nothing else (R104). -/
def Obligations.TstzTestsForZero : Prop :=
  ∀ (sa : Src) (s : State) (a : Nat), Operand s sa a →
    ∃ t, exec (.tstz sa) s = .next t ∧ Succeeded s t ∧ SameRegsBut [] s t ∧ SameMem s t ∧
      SameOrder s t ∧ (t.status.z = true ↔ a = 0) ∧
      t.result = (if a = 0 then 0x00000001 else 0x00000000)

/-- LEN sets RESULT to the limb count, the least k with a < 2^(32·k), and Z when it is zero (R15,
R105). -/
def Obligations.LenCountsLimbs : Prop :=
  ∀ (sa : Src) (s : State) (a k : Nat), Operand s sa a → LimbCount a k →
    ∃ t, exec (.len sa) s = .next t ∧ Succeeded s t ∧ SameRegsBut [] s t ∧ SameMem s t ∧
      SameOrder s t ∧ (t.status.z = true ↔ k = 0) ∧ t.result = BitVec.ofNat 32 k

/-! ### Adder, multiplier, divider -/

/-- ADD writes the exact sum, or fails with CAPACITY when it does not fit in MAXL limbs (R121, R214). -/
def Obligations.AddIsExactOrRefused : Prop :=
  ∀ (rd : RegNo) (sa sb : Src) (s : State) (a b : Nat), Operand s sa a → Operand s sb b →
    (Fits s (a + b) →
      ∃ t, exec (.add rd sa sb) s = .next t ∧ WroteReg rd (a + b) s t ∧ t.result = s.result) ∧
    (¬Fits s (a + b) → ∃ t, exec (.add rd sa sb) s = .next t ∧ FailedWith 0x09 s t)

/-- SUB writes a - b, or fails with NEGATIVE when b > a (R123, R215). -/
def Obligations.SubIsExactOrNegative : Prop :=
  ∀ (rd : RegNo) (sa sb : Src) (s : State) (a b : Nat), Operand s sa a → Operand s sb b →
    (∀ d, b + d = a →
      ∃ t, exec (.sub rd sa sb) s = .next t ∧ WroteReg rd d s t ∧ t.result = s.result) ∧
    (a < b → ∃ t, exec (.sub rd sa sb) s = .next t ∧ FailedWith 0x07 s t)

/-- MUL writes the exact product, or fails with CAPACITY when it does not fit in MAXL limbs (R131,
R214). -/
def Obligations.MulIsExactOrRefused : Prop :=
  ∀ (rd : RegNo) (sa sb : Src) (s : State) (a b : Nat), Operand s sa a → Operand s sb b →
    (Fits s (a * b) →
      ∃ t, exec (.mul rd sa sb) s = .next t ∧ WroteReg rd (a * b) s t ∧ t.result = s.result) ∧
    (¬Fits s (a * b) → ∃ t, exec (.mul rd sa sb) s = .next t ∧ FailedWith 0x09 s t)

/-- DIV, rd and re different: q·b + r = a with r < b, and for b = 0 q = 0 and r = a; q goes to rd, r to
re, Z is set from r; nothing else changes. QUO and MOD write the same q and r, Z from what they write
(R141 to R144, R205). -/
def Obligations.DivisionCommandsDivide : Prop :=
  ∀ (rd re : RegNo) (sa sb : Src) (s : State) (a b : Nat), Operand s sa a → Operand s sb b →
    ∃ q r : Nat, q * b + r = a ∧ (b ≠ 0 → r < b) ∧ (b = 0 → q = 0) ∧
      (rd ≠ re → ∃ t, exec (.div rd re sa sb) s = .next t ∧ Succeeded s t ∧
        t.breg[rd] = ⟨q, true⟩ ∧ t.breg[re] = ⟨r, true⟩ ∧ SameRegsBut [rd, re] s t ∧
        (t.status.z = true ↔ r = 0) ∧ SameOrder s t ∧ SameMem s t ∧ t.result = s.result) ∧
      (∃ t, exec (.quo rd sa sb) s = .next t ∧ WroteReg rd q s t ∧ t.result = s.result) ∧
      (∃ t, exec (.mod rd sa sb) s = .next t ∧ WroteReg rd r s t ∧ t.result = s.result)

/-! ### Serialisation -/

/-- LOAD reads ARG1 bytes at ARG0, least significant first: v is written and RESULT is its canonical byte
length, or CAPACITY when v does not fit in MAXL limbs (R66, R68, R151, R214). -/
def Obligations.LoadReadsLittleEndian : Prop :=
  ∀ (rd : RegNo) (s : State) (v k : Nat),
    argOffset s % 4 = 0 → argLength s % 4 = 0 → argOffset s + argLength s ≤ s.cfg.lmemBytes →
    (∀ i, i < argLength s → s.lmem.read (argOffset s + i) = BitVec.ofNat 8 (v / 256 ^ i)) →
    v < 256 ^ argLength s → LimbCount v k →
    (Fits s v → ∃ t, exec (.load rd) s = .next t ∧ WroteReg rd v s t ∧
      t.result = BitVec.ofNat 32 (4 * k)) ∧
    (¬Fits s v → ∃ t, exec (.load rd) s = .next t ∧ FailedWith 0x09 s t)

/-- STORE writes the 4·len(v) bytes of v at ARG0, least significant first, and no other byte, with RESULT
that count, or fails with BUFFER_TOO_SMALL when ARG1 is less (R67, R68, R152, R217). LMEM canonical:
see StepKeepsInvariant. -/
def Obligations.StoreWritesCanonicalBytes : Prop :=
  ∀ (sa : Src) (s : State) (v k : Nat), s.lmem.wf = true → Operand s sa v → LimbCount v k →
    argOffset s % 4 = 0 → argLength s % 4 = 0 → argOffset s + argLength s ≤ s.cfg.lmemBytes →
    (4 * k ≤ argLength s → ∃ t, exec (.store sa) s = .next t ∧ Succeeded s t ∧
      SameRegsBut [] s t ∧ t.status.z = s.status.z ∧ SameOrder s t ∧
      t.result = BitVec.ofNat 32 (4 * k) ∧
      (∀ i, i < 4 * k → t.lmem.read (argOffset s + i) = BitVec.ofNat 8 (v / 256 ^ i)) ∧
      (∀ c, c < argOffset s ∨ argOffset s + 4 * k ≤ c → t.lmem.read c = s.lmem.read c)) ∧
    (argLength s < 4 * k → ∃ t, exec (.store sa) s = .next t ∧ FailedWith 0x0A s t)

/-- STOREP writes exactly the ARG1 bytes at ARG0: those of v, then zero bytes; RESULT is 4·len(v), not
ARG1; BUFFER_TOO_SMALL as for STORE (R67, R68, R153, R217). -/
def Obligations.StorepWritesPaddedBlock : Prop :=
  ∀ (sa : Src) (s : State) (v k : Nat), s.lmem.wf = true → Operand s sa v → LimbCount v k →
    argOffset s % 4 = 0 → argLength s % 4 = 0 → argOffset s + argLength s ≤ s.cfg.lmemBytes →
    (4 * k ≤ argLength s → ∃ t, exec (.storep sa) s = .next t ∧ Succeeded s t ∧
      SameRegsBut [] s t ∧ t.status.z = s.status.z ∧ SameOrder s t ∧
      t.result = BitVec.ofNat 32 (4 * k) ∧
      (∀ i, i < 4 * k → t.lmem.read (argOffset s + i) = BitVec.ofNat 8 (v / 256 ^ i)) ∧
      (∀ i, 4 * k ≤ i → i < argLength s → t.lmem.read (argOffset s + i) = 0x00) ∧
      (∀ c, c < argOffset s ∨ argOffset s + argLength s ≤ c → t.lmem.read c = s.lmem.read c)) ∧
    (argLength s < 4 * k → ∃ t, exec (.storep sa) s = .next t ∧ FailedWith 0x0A s t)

/-- The buffer check of LOAD, STORE and STOREP, in its order: ARG0 misaligned, then ARG1 not a multiple
of 4, then ARG0 + ARG1 past the end without wrap-around (R70, R150, R206, R211, R212). -/
def Obligations.BadBuffersAreRefused : Prop :=
  ∀ (i : Instr) (s : State),
    ((∃ rd, i = .load rd) ∨ ∃ sa v, Operand s sa v ∧ (i = .store sa ∨ i = .storep sa)) →
    (s.a0l.toNat % 4 ≠ 0 → ∃ t, exec i s = .next t ∧ FailedWith 0x04 s t) ∧
    (s.a0l.toNat % 4 = 0 → s.a1l.toNat % 4 ≠ 0 → ∃ t, exec i s = .next t ∧ FailedWith 0x05 s t) ∧
    (s.a0l.toNat % 4 = 0 → s.a1l.toNat % 4 = 0 → s.cfg.lmemBytes < s.a0l.toNat + s.a1l.toNat →
      ∃ t, exec i s = .next t ∧ FailedWith 0x04 s t)

/-- Serialisation round trip: after a STORE of v with RESULT k, a LOAD at the same offset and length k
gives v back; after a STOREP of v, so does a LOAD of every length n', a multiple of 4, between k and the
block (R154). The LOAD's latched arguments are set in the state it runs on, as accepting it would. -/
def Obligations.StoreThenLoadRoundTrips : Prop :=
  ∀ (sa : Src) (rd : RegNo) (s t : State) (v : Nat) (n' : Word), s.Inv → Operand s sa v →
    t.status.err = false →
    ((exec (.store sa) s = .next t ∧ n' = t.result) ∨
     (exec (.storep sa) s = .next t ∧ n'.toNat % 4 = 0 ∧ t.result.toNat ≤ n'.toNat ∧
        n'.toNat ≤ s.a1l.toNat)) →
    ∃ u, exec (.load rd) { t with a0l := s.a0l, a1l := n' } = .next u ∧
      u.status.err = false ∧ u.breg[rd] = ⟨v, true⟩ ∧ u.result = t.result

/-! ### GCD, modular inverse, modular power, Jacobi -/

/-- GCD writes the greatest common divisor, gcd(a, 0) = a and gcd(0, 0) = 0 included (R14, R165,
R166). -/
def Obligations.GcdIsTheGreatestCommonDivisor : Prop :=
  ∀ (rd : RegNo) (sa sb : Src) (s : State) (a b : Nat), Operand s sa a → Operand s sb b →
    ∃ t, exec (.gcd rd sa sb) s = .next t ∧ WroteReg rd (Nat.gcd a b) s t ∧ t.result = s.result

/-- MODINV: DOMAIN for m < 2; NOT_INVERTIBLE when gcd(a, m) ≠ 1; else the one x in [0, m) with
a·x mod m = 1 (R167, R168, R213, R216). -/
def Obligations.ModinvIsTheUniqueInverse : Prop :=
  ∀ (rd : RegNo) (sa sb : Src) (s : State) (a m : Nat), Operand s sa a → Operand s sb m →
    (m < 2 → ∃ t, exec (.modinv rd sa sb) s = .next t ∧ FailedWith 0x06 s t) ∧
    (2 ≤ m → Nat.gcd a m ≠ 1 → ∃ t, exec (.modinv rd sa sb) s = .next t ∧ FailedWith 0x08 s t) ∧
    (2 ≤ m → Nat.gcd a m = 1 → ∃ x t, x < m ∧ a * x % m = 1 ∧ (∀ y, y < m → a * y % m = 1 → y = x) ∧
      exec (.modinv rd sa sb) s = .next t ∧ WroteReg rd x s t ∧ t.result = s.result)

/-- MODPOW: DOMAIN for m = 0; 1 for e = 0 whatever m ≥ 1; else b^e mod m (R170, R171, R213). -/
def Obligations.ModpowIsThePowerModM : Prop :=
  ∀ (rd : RegNo) (sa sb sc : Src) (s : State) (b e m : Nat),
    Operand s sa b → Operand s sb e → Operand s sc m →
    (m = 0 → ∃ t, exec (.modpow rd sa sb sc) s = .next t ∧ FailedWith 0x06 s t) ∧
    (m ≠ 0 → ∃ t, exec (.modpow rd sa sb sc) s = .next t ∧
      WroteReg rd (if e = 0 then 1 else b ^ e % m) s t ∧ t.result = s.result)

/-- JACOBI: DOMAIN for n even (0 included); else RESULT is the two's-complement word of the Jacobi symbol,
Mathlib's jacobiSym, the product of Legendre symbols over the factorisation of n (R185; log entry 15), and
rd gets it with -1 written as n - 1, Z set exactly when it is 0 (R186, R187, R213). -/
def Obligations.JacobiIsTheJacobiSymbol : Prop :=
  ∀ (rd : RegNo) (sa sb : Src) (s : State) (a n : Nat), Operand s sa a → Operand s sb n →
    (n % 2 = 0 → ∃ t, exec (.jacobi rd sa sb) s = .next t ∧ FailedWith 0x06 s t) ∧
    (n % 2 = 1 → ∃ t, exec (.jacobi rd sa sb) s = .next t ∧
      WroteReg rd (if jacobiSym a n = -1 then n - 1 else (jacobiSym a n).toNat) s t ∧
      (t.status.z = true ↔ jacobiSym a n = 0) ∧ t.result = BitVec.ofInt 32 (jacobiSym a n))

/-! ### Errors, over all commands -/

/-- A term with a reserved selector, or DIV with rd = re, fails with ILLEGAL_OPERAND, whatever else is
wrong with it (R84, R141, R206, R209). -/
def Obligations.IllegalOperandsAreRefused : Prop :=
  ∀ (i : Instr) (s : State), i.wf = false → ∃ t, exec i s = .next t ∧ FailedWith 0x02 s t

/-- A legal command with a used source register that is invalid fails with UNINIT, whatever its other
operands and its buffer (R42, R206, R210). -/
def Obligations.UninitialisedSourcesAreRefused : Prop :=
  ∀ (i : Instr) (s : State), i.wf = true → (∃ x ∈ i.srcs, Uninit s x) →
    ∃ t, exec i s = .next t ∧ FailedWith 0x03 s t

/-- Every command completes, and either succeeds or fails outright with one of the codes 0x01..0x0A: no
third outcome, no fault and no refusal; and so does every word that CUR can hold. Then the core is idle and
accepts the next word. Whatever ERR and ERRCODE were before, the completion overwrites them (R200, R201,
R203). -/
def Obligations.EveryCommandSucceedsOrFailsOutright : Prop :=
  (∀ (i : Instr) (s : State), ∃ t, exec i s = .next t ∧
    (Succeeded s t ∨ ∃ c : BitVec 8, 0x01 ≤ c.toNat ∧ c.toNat ≤ 0x0A ∧ FailedWith c s t)) ∧
  (∀ s : State, s.status.busy = true → s.rst = false → ∃ t, coreTurn s = .next t ∧
    (Succeeded s t ∨ ∃ c : BitVec 8, 0x01 ≤ c.toNat ∧ c.toNat ≤ 0x0A ∧ FailedWith c s t) ∧
    ∀ w, (acceptCommand w t).cur = w ∧ (acceptCommand w t).status.busy = true)

/-- A completion that leaves ERR = 1 wrote no operand register or valid bit, no LMEM byte, no RESULT and
none of Z, LT, EQ, GT, and nothing else beyond what R200 lists, for every command word, decodable or not
(R203). -/
def Obligations.FailedCommandHasNoEffect : Prop :=
  ∀ s t : State, s.status.busy = true → s.rst = false → coreTurn s = .next t →
    t.status.err = true → FailedWith t.status.errcode s t

/-- Each command writes only what R44, read with R47 for the flags, names for it: no register but its
destinations, and RESULT and LMEM only where the table of R44 says. Z and LT/EQ/GT follow R47: Z may change
under every command with a bigint destination, MOVI and MOV among them though their rows in R44 do not name
it, and under TSTZ and LEN. No command makes a register invalid (R42, R44, R47, R57, R101, R102). -/
def Obligations.CommandsWriteOnlyWhatTheirRowNames : Prop :=
  ∀ (i : Instr) (s t : State), exec i s = .next t →
    SameRegsBut i.dsts s t ∧
    (∀ r : RegNo, (s.breg[r]).valid = true → (t.breg[r]).valid = true) ∧
    (writesZ i = false → t.status.z = s.status.z) ∧
    (¬writesOrder i → SameOrder s t) ∧
    (writesResult i = false → t.result = s.result) ∧
    (¬writesMem i → SameMem s t)

/-- The command uses only the latched arguments: rewriting ARG0 and ARG1 before its completion changes
nothing in it but ARG0 and ARG1 themselves (R50). -/
def Obligations.CommandsUseOnlyLatchedArguments : Prop :=
  ∀ (i : Instr) (s t : State) (x y : Word), exec i s = .next t →
    exec i { s with arg0 := x, arg1 := y } = .next { t with arg0 := x, arg1 := y }

/-! ### The host's side -/

/-- A host write to CMD: idle, the word and both arguments are latched, BUSY <- 1 and DONE <- 0; busy, the
word is discarded and OVR <- 1; nothing else changes, and no word is refused (R51, R61, R233). -/
def Obligations.CmdWriteAcceptsOrOverruns : Prop :=
  ∀ (s : State) (w : Word) (rest : List Input), s.rst = false →
    s.inputs = .bus ⟨.write, 4, s.cfg.base + 0x14, w⟩ :: rest →
    (s.status.busy = false → step s = .next { s with
      inputs := rest, resp := some .ack, cur := w, a0l := s.arg0, a1l := s.arg1
      status := { s.status with busy := true, done := false } }) ∧
    (s.status.busy = true → step s = .next { s with
      inputs := rest, resp := some .ack, status := { s.status with ovr := true } })

/-- The register block read by the host: ID, PARAM0, PARAM1, CTRL, STATUS, ARG0, ARG1, RESULT, ERRCMD and
CMDCNT at their offsets, 0 at CMD and at every reserved offset; the read changes nothing but the bus
answer, and never waits (R48 to R60, R71, R72). -/
def Obligations.RegisterReadsFollowTheMap : Prop :=
  ∀ (s : State) (off : Nat) (d : Word) (rest : List Input), s.cfg.wf → s.rst = false →
    off < 0x1000 → off % 4 = 0 → s.inputs = .bus ⟨.read, 4, s.cfg.base + off, d⟩ :: rest →
    ∃ v : Word, step s = .next { s with inputs := rest, resp := some (.data v) } ∧
      (off = 0x000 → v = 0x52534131) ∧
      (off = 0x004 → v.toNat % 2 ^ 16 = s.cfg.maxl ∧ v.toNat / 2 ^ 16 % 2 ^ 8 = 0x10 ∧
        v.toNat / 2 ^ 24 = 0x11) ∧
      (off = 0x008 → v.toNat = s.cfg.lmemBytes) ∧
      (off = 0x00C → v = if s.ie = true then 1 else 0) ∧
      (off = 0x010 → v.getLsbD 0 = s.status.busy ∧ v.getLsbD 1 = s.status.done ∧
        v.getLsbD 2 = s.status.err ∧ v.getLsbD 3 = s.status.ovr ∧ v.getLsbD 4 = s.status.z ∧
        v.getLsbD 5 = s.status.lt ∧ v.getLsbD 6 = s.status.eq ∧ v.getLsbD 7 = s.status.gt ∧
        v.toNat / 2 ^ 8 = s.status.errcode.toNat) ∧
      (off = 0x014 → v = 0) ∧ (off = 0x018 → v = s.arg0) ∧ (off = 0x01C → v = s.arg1) ∧
      (off = 0x020 → v = s.result) ∧ (off = 0x024 → v = s.errcmd) ∧ (off = 0x028 → v = s.cmdcnt) ∧
      (0x02C ≤ off → v = 0)

/-- The register block written by the host, CMD and a soft reset aside: CTRL with bit 1 clear sets IE from
bit 0; STATUS clears DONE and OVR where bits 1 and 3 are set; ARG0 and ARG1 take the word; every other
offset, read-only or reserved, ignores the write (R48 to R50, R55, R56, R60). -/
def Obligations.RegisterWritesFollowTheMap : Prop :=
  ∀ (s : State) (off : Nat) (d : Word) (rest : List Input), s.rst = false →
    off < 0x1000 → off % 4 = 0 → s.inputs = .bus ⟨.write, 4, s.cfg.base + off, d⟩ :: rest →
    (off = 0x00C → d.getLsbD 1 = false →
      step s = .next { s with inputs := rest, resp := some .ack, ie := d.getLsbD 0 }) ∧
    (off = 0x010 → step s = .next { s with
      inputs := rest, resp := some .ack
      status := { s.status with
        done := if d.getLsbD 1 = true then false else s.status.done
        ovr := if d.getLsbD 3 = true then false else s.status.ovr } }) ∧
    (off = 0x018 → step s = .next { s with inputs := rest, resp := some .ack, arg0 := d }) ∧
    (off = 0x01C → step s = .next { s with inputs := rest, resp := some .ack, arg1 := d }) ∧
    (off ≠ 0x00C → off ≠ 0x010 → off ≠ 0x014 → off ≠ 0x018 → off ≠ 0x01C →
      step s = .next { s with inputs := rest, resp := some .ack })

/-- An access in the window that R69 does not permit, a fetch included, gets the bus error response and
has no effect; a permitted one never gets it (R69). That a fetch is answered so is the model's choice
(log entry 12). -/
def Obligations.UnpermittedAccessHasNoEffect : Prop :=
  ∀ (s : State) (a : Access) (off : Nat) (rest : List Input), s.cfg.wf → HostTurn s a rest →
    a.addr = s.cfg.base + off → off < 2 ^ 25 →
    (¬permitted s.cfg a off →
      step s = .next { s with inputs := rest, resp := some .busError }) ∧
    (permitted s.cfg a off → ∃ t, step s = .next t ∧ t.resp ≠ some .busError)

/-- A host read anywhere changes nothing but the bus answer: reads have no side effects (R72). -/
def Obligations.ReadsHaveNoSideEffects : Prop :=
  ∀ (s t : State) (a : Access) (rest : List Input), HostTurn s a rest → a.kind = .read →
    step s = .next t → t = { s with inputs := rest, resp := t.resp }

/-- A permitted host access to LMEM, at byte offset k: a read answers the addressed bytes, the one at the
lowest offset in bits [7:0], zero above them; a write puts byte lane j at offset k + j and leaves every
other byte; nothing else changes (R65, R68, R69). The zeros above a narrow read are the model's choice
(log entry 12). LMEM canonical: see StepKeepsInvariant. -/
def Obligations.HostAccessToLmemIsLittleEndian : Prop :=
  ∀ (s : State) (a : Access) (k : Nat) (rest : List Input), s.cfg.wf → s.lmem.wf = true →
    HostTurn s a rest → a.addr = s.cfg.base + 0x1000 + k → permitted s.cfg a (0x1000 + k) →
    (a.kind = .read → ∃ v : Word, step s = .next { s with inputs := rest, resp := some (.data v) } ∧
      (∀ j, j < a.bytes → v.toNat / 256 ^ j % 256 = (s.lmem.read (k + j)).toNat) ∧
      v.toNat < 256 ^ a.bytes) ∧
    (a.kind = .write → ∃ m, step s = .next { s with inputs := rest, resp := some .ack, lmem := m } ∧
      (∀ j, j < a.bytes → m.read (k + j) = BitVec.ofNat 8 (a.data.toNat / 256 ^ j)) ∧
      (∀ c, c < k ∨ k + a.bytes ≤ c → m.read c = s.lmem.read c))

/-- A host access to the LMEM region while a command runs waits: the step is the completion step, the
access stays the next input, and then it is no longer held; an access to the register block is answered
at once (R71). That the completion is the very next step is the model's: DESIGN CHOICE, log entry 3; that a
malformed access waits too: DEDUCED, log entry 11. -/
def Obligations.LmemAccessWaitsForCompletion : Prop :=
  ∀ (s : State) (a : Access) (rest : List Input), s.cfg.wf → s.rst = false →
    s.status.busy = true → s.inputs = .bus a :: rest →
    (s.cfg.base + 0x1000 ≤ a.addr → a.addr < s.cfg.base + 0x1000 + s.cfg.lmemBytes →
      ∃ t, step s = .next t ∧ step s = coreTurn s ∧ t.inputs = .bus a :: rest ∧
        t.status.busy = false ∧ HostTurn t a rest) ∧
    (s.cfg.base ≤ a.addr → a.addr < s.cfg.base + 0x1000 →
      ∃ t r, step s = .next t ∧ t.inputs = rest ∧ t.resp = some r)

/-- A host write to CTRL with bit 1 set resets everything but LMEM, whatever its other bits and whether or
not a command is in flight, whose effects do not land (R231). The values of the now invalid registers,
which the spec leaves open and nothing observes, are the model's own (log entry 5). -/
def Obligations.SoftResetKeepsOnlyLmem : Prop :=
  ∀ (s : State) (d : Word) (rest : List Input), s.rst = false → d.getLsbD 1 = true →
    s.inputs = .bus ⟨.write, 4, s.cfg.base + 0x0C, d⟩ :: rest →
    ∃ t, step s = .next t ∧ t.inputs = rest ∧ t.cfg = s.cfg ∧ t.lmem = s.lmem ∧
      (∀ i : RegNo, (t.breg[i]).valid = false) ∧ t.arg0 = 0 ∧ t.arg1 = 0 ∧ t.ie = false ∧
      t.status.toWord = 0 ∧ t.cur = 0 ∧ t.a0l = 0 ∧ t.a1l = 0 ∧ t.result = 0 ∧ t.errcmd = 0 ∧
      t.cmdcnt = 0

/-- RST asserted and then released puts every piece of state at its reset value, LMEM holding whatever the
draw gives: for every byte in the array and every draw of distinct offsets, the drawn byte (R230, U1). A
byte the draw does not give is 0: DESIGN CHOICE, log entry 2, not claimed here. -/
def Obligations.HardResetSetsResetValues : Prop :=
  ∀ (s : State) (draw : List (Nat × BitVec 8)) (rest : List Input),
    s.inputs = .rstAssert :: .rstRelease draw :: rest →
    ∃ t, Host.Core.run core 2 s = .next t ∧ t.inputs = rest ∧ t.cfg = s.cfg ∧ t.rst = false ∧
      (∀ i : RegNo, (t.breg[i]).valid = false) ∧ t.arg0 = 0 ∧ t.arg1 = 0 ∧ t.ie = false ∧
      t.status.toWord = 0 ∧ t.cur = 0 ∧ t.a0l = 0 ∧ t.a1l = 0 ∧ t.result = 0 ∧ t.errcmd = 0 ∧
      t.cmdcnt = 0 ∧ t.irq = false ∧
      ((draw.map Prod.fst).Nodup →
        ∀ c ∈ draw, c.1 < s.cfg.lmemBytes → t.lmem.read c.1 = c.2)

/-! ### Whole-machine rules -/

/-- IRQ rises only when a command completes with IE = 1, or when IE is set while DONE = 1; it falls only
by a write of 1 to STATUS.DONE, an accepted command, a write clearing IE or resetting through CTRL, or
the release of RST (R220, R221, R230, R231). R221 says 'at reset': that IRQ falls at the release of RST and
not at its assertion is the model's reading of R230, DEDUCED, log entry 9. -/
def Obligations.IrqChangesOnlyByItsCauses : Prop :=
  ∀ s t : State, step s = .next t →
    (s.irq = false → t.irq = true →
      (s.ie = true ∧ s.status.busy = true ∧ t.status.busy = false) ∨
      (s.status.done = true ∧ ∃ d, NextWrites s 0x0C d ∧ d.getLsbD 0 = true)) ∧
    (s.irq = true → t.irq = false →
      (∃ d, NextWrites s 0x10 d ∧ d.getLsbD 1 = true) ∨
      (s.status.busy = false ∧ ∃ d, NextWrites s 0x14 d) ∨
      (∃ d, NextWrites s 0x0C d ∧ (d.getLsbD 0 = false ∨ d.getLsbD 1 = true)) ∨
      (∃ draw rest, s.inputs = .rstRelease draw :: rest))

/-- Nothing but reset clears a valid bit: a step after which a valid register is invalid is a soft reset
or the release of RST (R42, R230, R231; that it is the release and not the assertion is DEDUCED, log
entry 9). -/
def Obligations.OnlyResetClearsValidBits : Prop :=
  ∀ (s t : State) (r : RegNo), step s = .next t → (s.breg[r]).valid = true →
    (t.breg[r]).valid = false →
    (∃ d, NextWrites s 0x0C d ∧ d.getLsbD 1 = true) ∨
    (s.rst = true ∧ ∃ draw rest, s.inputs = .rstRelease draw :: rest)

/-- The command in flight is not disturbed: while BUSY stays 1 over a step, CUR and the latched arguments
keep their values (R61, R78). -/
def Obligations.CommandInFlightIsUndisturbed : Prop :=
  ∀ s t : State, step s = .next t → s.status.busy = true → t.status.busy = true →
    t.cur = s.cur ∧ t.a0l = s.a0l ∧ t.a1l = s.a1l

/-- CMDCNT counts completions alone: over a step it goes up by one, mod 2^32, when a command completes
(BUSY falls and DONE is set), becomes 0 at a reset, and otherwise keeps its value; so a CMD write refused
under OVR does not count (R59, R225, R230, R231; that RST resets it at its release and not at its assertion
is DEDUCED, log entry 9). -/
def Obligations.CmdcntCountsCompletions : Prop :=
  ∀ s t : State, step s = .next t →
    (s.status.busy = true → t.status.busy = false → t.status.done = true →
      t.cmdcnt = s.cmdcnt + 1) ∧
    (¬(s.status.busy = true ∧ t.status.busy = false ∧ t.status.done = true) →
      t.cmdcnt = s.cmdcnt ∨ (t.cmdcnt = 0 ∧ ((∃ d, NextWrites s 0x0C d ∧ d.getLsbD 1 = true) ∨
        ∃ draw rest, s.inputs = .rstRelease draw :: rest)))

/-- State.reset meets the invariant, and so does the state after the release of RST under any legal
parameters and any draw (R230). -/
def Obligations.ResetMeetsInvariant : Prop :=
  State.reset.Inv ∧ ∀ (s : State) (draw : List (Nat × BitVec 8)), s.cfg.wf → (hardReset draw s).Inv

/-- Every step keeps the invariant, from every state that meets it: register values fit in MAXL limbs,
LMEM stays canonical and inside its array, ERRCODE is one of 0x00..0x0A and agrees with ERR, BUSY and
DONE exclude each other, at most one of LT, EQ and GT is 1 (R40, R47, R56, R61, R62, R65, R201; U13). -/
def Obligations.StepKeepsInvariant : Prop :=
  ∀ s t : State, s.Inv → step s = .next t → t.Inv

/-- The core never returns an unwritten register's content: two states that differ only in the values of
invalid registers take the same step, to states that again differ only there (R40, R42, U2). -/
def Obligations.InvalidRegistersAreUnobservable : Prop :=
  ∀ s s' : State, SameButInvalid s s' →
    (∀ t, step s = .next t → ∃ t', step s' = .next t' ∧ SameButInvalid t t') ∧
    (∀ r, step s = .refused r → step s' = .refused r)

/-- A run that keeps the bus contract never stops: no fault and no refusal, however many steps it takes
(R200, R230; U4). -/
def Obligations.ContractRunsNeverStop : Prop :=
  ∀ (k : Nat) (s : State), keepsContract s.cfg s.rst s.inputs = true →
    ∃ t, Host.Core.run core k s = .next t

/-- With RST released throughout, a run of n pending inputs is over, every access made and BUSY = 0, after
at most 2·n + 1 steps: every accepted command completes (R236, R239). The bound, and that a command in flight
completes when no input is left, are the model's choice: DESIGN CHOICE, log entry 3 (R235, R236); so is that
the run's end waits for the whole list of inputs: DESIGN CHOICE, log entry 18. -/
def Obligations.EveryRunComesToItsEnd : Prop :=
  ∀ s : State, s.rst = false →
    (∀ i ∈ s.inputs, i = .core ∨ ∃ a, i = .bus a) →
    ∃ t, Host.Core.run core (2 * s.inputs.length + 1) s = .next t ∧ t.finished

/-- Adder laws: ADD of a and b into a register, then SUB of b from it, gives back a; ADD is commutative;
SUB succeeds exactly when a ≥ b (R124). -/
def Obligations.AddThenSubGivesBack : Prop :=
  ∀ (rd rd' : RegNo) (sa sb : Src) (s : State) (a b : Nat), Operand s sa a → Operand s sb b →
    (len (a + b) ≤ s.cfg.maxl → ∃ t, exec (.add rd sa sb) s = .next t ∧
      exec (.add rd sb sa) s = .next t ∧
      ∀ sb', Operand t sb' b → ∃ u, exec (.sub rd' (.reg rd) sb') t = .next u ∧
        u.status.err = false ∧ u.breg[rd'] = ⟨a, true⟩) ∧
    (∃ t, exec (.sub rd sa sb) s = .next t ∧ (t.status.err = false ↔ b ≤ a))

/-! ### The units' algorithms compute the values the commands are stated on -/

/-- The ripple-carry limb adder's limbs are limbs, and their value is a + b exactly, of n limbs when the
final carry is 0 and n + 1 when it is 1 (R120). -/
def Obligations.RippleCarryAdderIsExact : Prop :=
  ∀ a b : Nat, limbsVal (adderLimbs a b) = a + b ∧ (∀ l ∈ adderLimbs a b, l < 2 ^ 32) ∧
    ∃ ls c, adderLimbs a b = ls ++ [c] ∧ ls.length = max (len a) (len b) ∧
      (c = 0 ∨ c = 1) ∧ len (a + b) = ls.length + c

/-- The ripple-borrow limb subtractor: the final borrow is 1 exactly when b > a; when it is 0 the value is
a - b, and when it is 1 the value is a - b + 2^(32·n) (R122). -/
def Obligations.RippleBorrowSubtractorIsExact : Prop :=
  ∀ a b : Nat, (∀ l ∈ (subtractorLimbs a b).1, l < 2 ^ 32) ∧
    (subtractorLimbs a b).1.length = max (len a) (len b) ∧
    (a < b → (subtractorLimbs a b).2 = 1 ∧
      limbsVal (subtractorLimbs a b).1 + b = a + 2 ^ (32 * max (len a) (len b))) ∧
    (b ≤ a → (subtractorLimbs a b).2 = 0 ∧ limbsVal (subtractorLimbs a b).1 + b = a)

/-- The schoolbook multiplier's m + n limbs are limbs and their value is a · b exactly (R130). -/
def Obligations.SchoolbookMultiplierIsExact : Prop :=
  ∀ a b : Nat, limbsVal (multiplierLimbs a b) = a * b ∧
    (∀ l ∈ multiplierLimbs a b, l < 2 ^ 32) ∧ (multiplierLimbs a b).length = len a + len b

/-- The long-division engine, normalised estimation and single-limb path alike, gives exactly a div b and
a mod b for b > 0 (R140). -/
def Obligations.LongDivisionIsExact : Prop :=
  ∀ a b : Nat, 0 < b → divmod a b = (a / b, a % b)
end

