-- ==== Sys2Proof/Laws/State.lean ====
section
/-! SUPPORT. One lemma per field per update of State, and what a register write leaves alone. -/

namespace Sys2Proof.Machine

/-! ### endCommand, takeError, applyWrites, complete -/

section
variable (s : State) (w : Writes) (c : ErrCode) (o : CmdOutcome)

@[simp] theorem complete_cfg : (complete o s).cfg = s.cfg := by cases o <;> rfl
@[simp] theorem complete_arg0 : (complete o s).arg0 = s.arg0 := by cases o <;> rfl
@[simp] theorem complete_arg1 : (complete o s).arg1 = s.arg1 := by cases o <;> rfl
@[simp] theorem complete_ie : (complete o s).ie = s.ie := by cases o <;> rfl
@[simp] theorem complete_cur : (complete o s).cur = s.cur := by cases o <;> rfl
@[simp] theorem complete_a0l : (complete o s).a0l = s.a0l := by cases o <;> rfl
@[simp] theorem complete_a1l : (complete o s).a1l = s.a1l := by cases o <;> rfl
@[simp] theorem complete_rst : (complete o s).rst = s.rst := by cases o <;> rfl
@[simp] theorem complete_inputs : (complete o s).inputs = s.inputs := by cases o <;> rfl
@[simp] theorem complete_resp : (complete o s).resp = s.resp := by cases o <;> rfl
@[simp] theorem complete_cmdcnt : (complete o s).cmdcnt = s.cmdcnt + 1 := by cases o <;> rfl
@[simp] theorem complete_busy : (complete o s).status.busy = false := by cases o <;> rfl
@[simp] theorem complete_done : (complete o s).status.done = true := by cases o <;> rfl

@[simp] theorem complete_ovr : (complete o s).status.ovr = s.status.ovr := by
  cases o with
  | error _ => rfl
  | ok w => rcases w with ⟨_, _ | _, _ | _, _, _⟩ <;> rfl

/-! A successful completion. -/

@[simp] theorem complete_ok_breg : (complete (.ok w) s).breg = writeRegs s.breg w.dst := rfl
@[simp] theorem complete_ok_result : (complete (.ok w) s).result = w.result.getD s.result := rfl
@[simp] theorem complete_ok_errcmd : (complete (.ok w) s).errcmd = s.errcmd := rfl
@[simp] theorem complete_ok_err : (complete (.ok w) s).status.err = false := rfl
@[simp] theorem complete_ok_errcode : (complete (.ok w) s).status.errcode = 0 := rfl

theorem complete_ok_lmem : (complete (.ok w) s).lmem =
    match w.mem with
    | none => s.lmem
    | some st => memWrite s.lmem st.addr st.bytes st.value := rfl

theorem complete_ok_z : (complete (.ok w) s).status.z = w.z.getD s.status.z := by
  rcases w with ⟨_, _ | _, _ | _, _, _⟩ <;> rfl

theorem complete_ok_lt : (complete (.ok w) s).status.lt =
    (w.order.map (· == .lt)).getD s.status.lt := by
  rcases w with ⟨_, _ | _, _ | _, _, _⟩ <;> rfl

theorem complete_ok_eq : (complete (.ok w) s).status.eq =
    (w.order.map (· == .eq)).getD s.status.eq := by
  rcases w with ⟨_, _ | _, _ | _, _, _⟩ <;> rfl

theorem complete_ok_gt : (complete (.ok w) s).status.gt =
    (w.order.map (· == .gt)).getD s.status.gt := by
  rcases w with ⟨_, _ | _, _ | _, _, _⟩ <;> rfl

/-! A failed completion. -/

@[simp] theorem complete_error_breg : (complete (.error c) s).breg = s.breg := rfl
@[simp] theorem complete_error_lmem : (complete (.error c) s).lmem = s.lmem := rfl
@[simp] theorem complete_error_result : (complete (.error c) s).result = s.result := rfl
@[simp] theorem complete_error_errcmd : (complete (.error c) s).errcmd = s.cur := rfl
@[simp] theorem complete_error_err : (complete (.error c) s).status.err = true := rfl
@[simp] theorem complete_error_errcode : (complete (.error c) s).status.errcode = errorCode c := rfl
@[simp] theorem complete_error_z : (complete (.error c) s).status.z = s.status.z := rfl
@[simp] theorem complete_error_lt : (complete (.error c) s).status.lt = s.status.lt := rfl
@[simp] theorem complete_error_eq : (complete (.error c) s).status.eq = s.status.eq := rfl
@[simp] theorem complete_error_gt : (complete (.error c) s).status.gt = s.status.gt := rfl

end

/-- What every completion leaves alone. -/
theorem sameControl_complete (o : CmdOutcome) (s : State) : SameControl s (complete o s) := by
  constructor <;> simp

/-- What a successful completion always does. -/
theorem succeeded_complete (w : Writes) (s : State) : Succeeded s (complete (.ok w) s) := by
  constructor <;> first | exact sameControl_complete _ _ | simp

/-- All that a failed completion does. -/
theorem failedWith_complete (c : ErrCode) (s : State) :
    FailedWith (errorCode c) s (complete (.error c) s) := by
  constructor <;> first
    | exact sameControl_complete _ _
    | simp [SameRegsBut, SameMem, SameOrder]

/-! ### acceptCommand, answer and the resets -/

section
variable (s : State) (w : Word) (r : Response)

@[simp] theorem accept_breg : (acceptCommand w s).breg = s.breg := by unfold acceptCommand; split <;> rfl
@[simp] theorem accept_lmem : (acceptCommand w s).lmem = s.lmem := by unfold acceptCommand; split <;> rfl
@[simp] theorem accept_cfg : (acceptCommand w s).cfg = s.cfg := by unfold acceptCommand; split <;> rfl
@[simp] theorem accept_result : (acceptCommand w s).result = s.result := by
  unfold acceptCommand; split <;> rfl
@[simp] theorem accept_errcmd : (acceptCommand w s).errcmd = s.errcmd := by
  unfold acceptCommand; split <;> rfl
@[simp] theorem accept_cmdcnt : (acceptCommand w s).cmdcnt = s.cmdcnt := by
  unfold acceptCommand; split <;> rfl
@[simp] theorem accept_ie : (acceptCommand w s).ie = s.ie := by unfold acceptCommand; split <;> rfl
@[simp] theorem accept_rst : (acceptCommand w s).rst = s.rst := by unfold acceptCommand; split <;> rfl
@[simp] theorem accept_inputs : (acceptCommand w s).inputs = s.inputs := by
  unfold acceptCommand; split <;> rfl
@[simp] theorem accept_busy : (acceptCommand w s).status.busy = true := by
  unfold acceptCommand; split <;> simp_all

@[simp] theorem answer_resp : (answer r s).resp = some r := rfl
@[simp] theorem answer_breg : (answer r s).breg = s.breg := rfl
@[simp] theorem answer_lmem : (answer r s).lmem = s.lmem := rfl
@[simp] theorem answer_cfg : (answer r s).cfg = s.cfg := rfl
@[simp] theorem answer_status : (answer r s).status = s.status := rfl
@[simp] theorem answer_rst : (answer r s).rst = s.rst := rfl
@[simp] theorem answer_ie : (answer r s).ie = s.ie := rfl
@[simp] theorem answer_inputs : (answer r s).inputs = s.inputs := rfl

@[simp] theorem softReset_cfg : (softReset s).cfg = s.cfg := rfl
@[simp] theorem softReset_lmem : (softReset s).lmem = s.lmem := rfl
@[simp] theorem softReset_rst : (softReset s).rst = s.rst := rfl
@[simp] theorem softReset_inputs : (softReset s).inputs = s.inputs := rfl
@[simp] theorem softReset_breg : (softReset s).breg = Vector.replicate 16 ⟨0, false⟩ := rfl
@[simp] theorem softReset_status :
    (softReset s).status = ⟨false, false, false, false, false, false, false, false, 0⟩ := rfl

variable (d : List (Nat × BitVec 8))

@[simp] theorem hardReset_cfg : (hardReset d s).cfg = s.cfg := rfl
@[simp] theorem hardReset_lmem : (hardReset d s).lmem = drawMemory s.cfg.lmemBytes d := rfl
@[simp] theorem hardReset_rst : (hardReset d s).rst = false := rfl
@[simp] theorem hardReset_inputs : (hardReset d s).inputs = s.inputs := rfl
@[simp] theorem hardReset_breg : (hardReset d s).breg = Vector.replicate 16 ⟨0, false⟩ := rfl
@[simp] theorem hardReset_status :
    (hardReset d s).status = ⟨false, false, false, false, false, false, false, false, 0⟩ := rfl

end

/-! ### Register writes -/

theorem writeReg_same (b : Vector BReg 16) (i : RegNo) (v : Nat) :
    (writeReg b i v)[i] = ⟨v, true⟩ := by
  simp [writeReg, Fin.getElem_fin]

@[simp] theorem writeReg_same_val (b : Vector BReg 16) (i : RegNo) (v : Nat) :
    (writeReg b i v)[i.val] = ⟨v, true⟩ := writeReg_same b i v

theorem writeReg_other (b : Vector BReg 16) (i j : RegNo) (v : Nat) (h : j ≠ i) :
    (writeReg b i v)[j] = b[j] := by
  have : (i : Nat) ≠ j := fun e => h (Fin.ext e.symm)
  simp [writeReg, Fin.getElem_fin, this]

/-- Writes to other registers leave a register alone. -/
theorem writeRegs_other (ws : List (RegNo × Nat)) (b : Vector BReg 16) (j : RegNo)
    (h : j ∉ ws.map Prod.fst) : (writeRegs b ws)[j] = b[j] := by
  induction ws generalizing b with
  | nil => rfl
  | cons p ws ih =>
    obtain ⟨i, v⟩ := p
    simp only [List.map_cons, List.mem_cons, not_or] at h
    rw [writeRegs, ih _ h.2, writeReg_other _ _ _ _ h.1]

/-- After a command's writes a register is as it was, or valid and holding one of the values written. -/
theorem writeRegs_cases (ws : List (RegNo × Nat)) (b : Vector BReg 16) (j : RegNo) :
    (writeRegs b ws)[j] = b[j] ∨ ∃ v, (j, v) ∈ ws ∧ (writeRegs b ws)[j] = ⟨v, true⟩ := by
  induction ws generalizing b with
  | nil => exact .inl rfl
  | cons p ws ih =>
    obtain ⟨i, v⟩ := p
    obtain h | ⟨u, hu, h⟩ := ih (writeReg b i v)
    · by_cases e : j = i
      · subst e; exact .inr ⟨v, List.mem_cons_self, by rw [writeRegs, h, writeReg_same]⟩
      · exact .inl (by rw [writeRegs, h, writeReg_other _ _ _ _ e])
    · exact .inr ⟨u, List.mem_cons_of_mem _ hu, h⟩

end Sys2Proof.Machine
end

