-- ==== Sys2Proof/Laws/Limbs.lean ====
section
/-! SUPPORT. The limb count is the least n with v < 2^(32·n) (R15). -/

namespace Sys2Proof.Machine

/-- len(v) <= n exactly when v < 2^(32·n) (R15). -/
theorem len_le_iff (v n : Nat) : len v ≤ n ↔ v < 2 ^ (32 * n) := by
  unfold len
  split
  · next h => subst h; simp
  · next h =>
    rw [← Nat.log2_lt h]
    omega

theorem lt_len_iff (v n : Nat) : n < len v ↔ 2 ^ (32 * n) ≤ v := by
  have := len_le_iff v n; omega

@[simp] theorem len_zero : len 0 = 0 := rfl

theorem len_eq_zero_iff (v : Nat) : len v = 0 ↔ v = 0 := by
  unfold len; split <;> simp_all

theorem lt_pow_len (v : Nat) : v < 2 ^ (32 * len v) := (len_le_iff v _).1 (Nat.le_refl _)

/-- A value's bytes end at its canonical byte length. -/
theorem lt_bytes_len (v n : Nat) (h : 4 * len v ≤ n) : v < 256 ^ n := by
  have h1 := lt_pow_len v
  have h2 : (256 : Nat) ^ n = 2 ^ (8 * n) := by rw [Nat.pow_mul]
  rw [h2]
  exact Nat.lt_of_lt_of_le h1 (Nat.pow_le_pow_right (by decide) (by omega))

/-- The limb count is what R15 says it is. -/
theorem limbCount_len (v : Nat) : LimbCount v (len v) :=
  ⟨lt_pow_len v, fun j h => (lt_len_iff v j).1 h⟩

theorem len_of_limbCount {v k : Nat} (h : LimbCount v k) : len v = k := by
  have h1 := (len_le_iff v k).2 h.1
  by_contra hne
  have := h.2 (len v) (by omega)
  have := lt_pow_len v
  omega

end Sys2Proof.Machine
end

