-- ==== Sys2Proof/Laws/Divider.lean ====
section
/-! SUPPORT. The parts of the long-division engine (R140): the corrected estimate is the quotient digit or one
more, the digit is exact, and both loops divide. -/

namespace Sys2Proof.Machine

/-- The fast path, from limb i-1 down with remainder r so far, divides r · 2^(32·i) + (a mod 2^(32·i)). -/
theorem shortDivide_spec (a d : Nat) (i r : Nat) (hr : r < d) :
    shortDivide a d i r = ((r * limbBase ^ i + a % limbBase ^ i) / d,
      (r * limbBase ^ i + a % limbBase ^ i) % d) := by
  have hd : 0 < d := by omega
  induction i generalizing r with
  | zero => simp [shortDivide, Nat.mod_one, Nat.div_eq_of_lt hr, Nat.mod_eq_of_lt hr]
  | succ i ih =>
    have hl : limb a i = a / limbBase ^ i % limbBase := by
      simp only [limb, limbBase]
    have hs : r * limbBase ^ (i + 1) + a % limbBase ^ (i + 1) =
        (r * limbBase + limb a i) * limbBase ^ i + a % limbBase ^ i := by
      rw [hl, pow_succ, Nat.mod_mul, add_mul]
      ring
    have ht : (r * limbBase + limb a i) / d * d + (r * limbBase + limb a i) % d =
        r * limbBase + limb a i := Nat.div_add_mod' _ _
    rw [shortDivide, ih _ (Nat.mod_lt _ hd), hs]
    generalize r * limbBase + limb a i = t at ht ⊢
    generalize a % limbBase ^ i = x
    have hx : t * limbBase ^ i + x = d * (t / d * limbBase ^ i) + (t % d * limbBase ^ i + x) := by
      conv_lhs => rw [← ht]
      ring
    rw [hx, Nat.mul_add_div hd, Nat.mul_add_mod]

/-- The corrected estimate is at least the digit q and at most one more. Here W is the window, q = W div v,
and the estimate works on W's and v's top limbs: num = W div 2^(32·(n-1)), v_{n-1} = v div 2^(32·(n-1)). -/
theorem correctEstimate_spec {W v vTop vNext uNext num P : Nat} (hP : 0 < P)
    (hv : (vTop * limbBase + vNext) * P ≤ v) (hv' : v < (vTop * limbBase + vNext + 1) * P)
    (hvN : vNext < limbBase) (hW : (num * limbBase + uNext) * P ≤ W)
    (hW' : W < (num * limbBase + uNext + 1) * P) (hT : 0 < vTop) (hq : W < v * limbBase)
    (fuel qhat rhat : Nat) (he : qhat * vTop + rhat = num) (hf : limbBase ≤ rhat + fuel)
    (hl : W / v ≤ qhat) :
    W / v ≤ correctEstimate vTop vNext uNext fuel qhat rhat ∧
      correctEstimate vTop vNext uNext fuel qhat rhat * v ≤ W + v := by
  have hvpos : 0 < v := by
    refine lt_of_lt_of_le ?_ hv
    have : 0 < vTop * limbBase := Nat.mul_pos hT (by decide)
    positivity
  -- the estimate is good once rhat has reached 2^32
  have big : ∀ Q R, Q * vTop + R = num → limbBase ≤ R → Q * v ≤ W + v := by
    intro Q R h hR
    have h1 : Q * vTop + limbBase ≤ num := by omega
    have hnum : num < (vTop + 1) * limbBase := by
      by_contra hc
      have : (vTop * limbBase + vNext + 1) * P ≤ num * P := Nat.mul_le_mul_right P (by nlinarith)
      have h2 : num * P * limbBase ≤ (num * limbBase + uNext) * P := by nlinarith
      have : v * limbBase ≤ num * P * limbBase := Nat.mul_le_mul_right _ (by omega)
      omega
    have hQ : Q < limbBase := by
      by_contra hc
      have : limbBase * vTop ≤ Q * vTop := Nat.mul_le_mul_right _ (by omega)
      nlinarith
    have h3 : Q * v ≤ Q * ((vTop * limbBase + limbBase) * P) :=
      Nat.mul_le_mul_left Q (le_trans hv'.le (Nat.mul_le_mul_right P (by omega)))
    have h4 : Q * ((vTop * limbBase + limbBase) * P) ≤ num * limbBase * P := by
      have : Q * (vTop * limbBase + limbBase) ≤ num * limbBase := by nlinarith
      calc Q * ((vTop * limbBase + limbBase) * P) = Q * (vTop * limbBase + limbBase) * P := by ring
        _ ≤ num * limbBase * P := Nat.mul_le_mul_right P this
    have h5 : num * limbBase * P ≤ (num * limbBase + uNext) * P := Nat.mul_le_mul_right P (by omega)
    omega
  induction fuel generalizing qhat rhat with
  | zero => exact ⟨hl, big qhat rhat he (by omega)⟩
  | succ fuel ih =>
    unfold correctEstimate
    split
    · next h =>
      obtain ⟨hr, h⟩ := h
      have hlt : W / v < qhat := by
        rcases h with h | h
        · exact lt_of_lt_of_le ((Nat.div_lt_iff_lt_mul hvpos).2 (by rwa [Nat.mul_comm] at hq)) h
        · rw [Nat.div_lt_iff_lt_mul hvpos]
          have h1 : num * limbBase + uNext + 1 ≤ qhat * (vTop * limbBase + vNext) := by
            rw [← he]; nlinarith
          calc W < (num * limbBase + uNext + 1) * P := hW'
            _ ≤ qhat * (vTop * limbBase + vNext) * P := Nat.mul_le_mul_right P h1
            _ = qhat * ((vTop * limbBase + vNext) * P) := by ring
            _ ≤ qhat * v := Nat.mul_le_mul_left qhat hv
      obtain ⟨k, rfl⟩ : ∃ k, qhat = k + 1 := ⟨qhat - 1, by have := Nat.zero_le (W / v); omega⟩
      rw [Nat.add_sub_cancel]
      have hf' : limbBase ≤ rhat + vTop + fuel := by omega
      exact ih k (rhat + vTop) (by rw [← he]; ring) hf' (Nat.lt_succ_iff.1 hlt)
    · next h =>
      refine ⟨hl, ?_⟩
      by_cases hr : limbBase ≤ rhat
      · exact big qhat rhat he hr
      · have hb : qhat < limbBase ∧ qhat * vNext ≤ rhat * limbBase + uNext := by
          constructor <;> by_contra hc <;> exact h ⟨by omega, by omega⟩
        have h1 : qhat * (vTop * limbBase + vNext) ≤ num * limbBase + uNext := by
          rw [← he]; nlinarith [hb.2]
        have h2 : qhat * v ≤ qhat * ((vTop * limbBase + vNext) * P) + qhat * P := by
          have : qhat * v ≤ qhat * ((vTop * limbBase + vNext + 1) * P) := Nat.mul_le_mul_left _ hv'.le
          calc qhat * v ≤ _ := this
            _ = _ := by ring
        have h3 : qhat * ((vTop * limbBase + vNext) * P) ≤ W := by
          calc qhat * ((vTop * limbBase + vNext) * P) = qhat * (vTop * limbBase + vNext) * P := by ring
            _ ≤ (num * limbBase + uNext) * P := Nat.mul_le_mul_right P h1
            _ ≤ W := hW
        have h4 : qhat * P ≤ v := by
          refine le_trans ?_ hv
          apply Nat.mul_le_mul_right P
          nlinarith [hb.1]
        omega

theorem limb_eq (v i : Nat) : limb v i = v / limbBase ^ i % limbBase := rfl

/-- The digit is exact: for v of n limbs, n at least 2, with a non-zero top limb, and u < v · 2^(32·(j+1)),
it is u div (v · 2^(32·j)). -/
theorem quotientDigit_spec {u v n j : Nat} (hn : 2 ≤ n) (hv : v < limbBase ^ n)
    (hT : limbBase ^ (n - 1) ≤ v) (hu : u < v * limbBase ^ (j + 1)) :
    quotientDigit u v n j = u / (v * limbBase ^ j) := by
  obtain ⟨m, rfl⟩ : ∃ m, n = m + 2 := ⟨n - 2, by omega⟩
  have hB : 0 < limbBase := by decide
  have hPj : 0 < limbBase ^ j := Nat.pow_pos hB
  have hPm : 0 < limbBase ^ m := Nat.pow_pos hB
  have hvpos : 0 < v := lt_of_lt_of_le (Nat.pow_pos hB) hT
  -- the window is u div 2^(32·j)
  have hWlt : u / limbBase ^ j < v * limbBase := by
    rw [Nat.div_lt_iff_lt_mul hPj, Nat.mul_assoc, ← pow_succ']
    exact hu
  have hwin : u / limbBase ^ j % limbBase ^ (m + 2 + 1) = u / limbBase ^ j := by
    apply Nat.mod_eq_of_lt
    calc u / limbBase ^ j < v * limbBase := hWlt
      _ ≤ limbBase ^ (m + 2) * limbBase := Nat.mul_le_mul_right _ hv.le
      _ = limbBase ^ (m + 2 + 1) := (pow_succ _ _).symm
  have hdig : u / (v * limbBase ^ j) = u / limbBase ^ j / v := by
    rw [Nat.mul_comm, ← Nat.div_div_eq_div_mul]
  have hlimb : ∀ k, limb u (j + k) = u / limbBase ^ j / limbBase ^ k % limbBase := fun k => by
    rw [limb_eq, pow_add, ← Nat.div_div_eq_div_mul]
  unfold quotientDigit
  simp only [hwin, hdig, Nat.add_sub_cancel, show m + 2 - 1 = m + 1 by omega,
    show j + (m + 2) - 1 = j + (m + 1) by omega, show j + (m + 2) - 2 = j + m by omega, hlimb]
  generalize u / limbBase ^ j = W at hWlt ⊢
  -- the top limbs of W and of v
  have top : ∀ x k, x / limbBase ^ (k + 1) % limbBase * limbBase + x / limbBase ^ k % limbBase =
      x / limbBase ^ k % limbBase ^ 2 := fun x k => by
    rw [pow_succ, ← Nat.div_div_eq_div_mul, pow_two, Nat.mod_mul]; ring
  have hvT : limb v (m + 1) = v / limbBase ^ (m + 1) := by
    rw [limb_eq, Nat.mod_eq_of_lt]
    rw [Nat.div_lt_iff_lt_mul (Nat.pow_pos hB), ← pow_succ']
    exact hv
  have hvTpos : 0 < limb v (m + 1) := by
    rw [hvT]; exact Nat.div_pos hT (Nat.pow_pos hB)
  have hnum : W / limbBase ^ (m + 2) % limbBase * limbBase + W / limbBase ^ (m + 1) % limbBase =
      W / limbBase ^ (m + 1) := by
    rw [top, Nat.mod_eq_of_lt]
    rw [Nat.div_lt_iff_lt_mul (Nat.pow_pos hB)]
    calc W < v * limbBase := hWlt
      _ ≤ limbBase ^ (m + 2) * limbBase := Nat.mul_le_mul_right _ hv.le
      _ = limbBase ^ 2 * limbBase ^ (m + 1) := by ring
  rw [hnum]
  have split : ∀ x, x / limbBase ^ (m + 1) * limbBase + x / limbBase ^ m % limbBase =
      x / limbBase ^ m := fun x => by
    rw [pow_succ, ← Nat.div_div_eq_div_mul]; exact Nat.div_add_mod' _ _
  have below : ∀ x, x / limbBase ^ m * limbBase ^ m ≤ x := fun x => Nat.div_mul_le_self _ _
  have above : ∀ x, x < (x / limbBase ^ m + 1) * limbBase ^ m := fun x => by
    rw [← Nat.div_lt_iff_lt_mul hPm]; exact Nat.lt_succ_self _
  have hqW : W / v ≤ W / limbBase ^ (m + 1) / limb v (m + 1) := by
    rw [Nat.le_div_iff_mul_le hvTpos, Nat.le_div_iff_mul_le (Nat.pow_pos hB)]
    calc W / v * limb v (m + 1) * limbBase ^ (m + 1)
        = W / v * (v / limbBase ^ (m + 1) * limbBase ^ (m + 1)) := by rw [hvT]; ring
      _ ≤ W / v * v := Nat.mul_le_mul_left _ (Nat.div_mul_le_self _ _)
      _ ≤ W := Nat.div_mul_le_self _ _
  obtain ⟨h1, h2⟩ := correctEstimate_spec (W := W) (v := v) (vTop := limb v (m + 1))
    (vNext := limb v m) (uNext := W / limbBase ^ m % limbBase) (num := W / limbBase ^ (m + 1)) hPm
    (by rw [hvT, limb_eq v m, split]; exact below v) (by rw [hvT, limb_eq v m, split]; exact above v)
    (by rw [limb_eq]; exact Nat.mod_lt _ hB) (by rw [split]; exact below W)
    (by rw [split]; exact above W) hvTpos hWlt limbBase
    (W / limbBase ^ (m + 1) / limb v (m + 1)) (W / limbBase ^ (m + 1) % limb v (m + 1))
    (Nat.div_add_mod' _ _) (Nat.le_add_left _ _) hqW
  generalize correctEstimate _ _ _ _ _ _ = Q at h1 h2 ⊢
  have h3 : Q ≤ W / v + 1 := by
    have : Q * v < (W / v + 2) * v := by
      have := Nat.lt_mul_of_div_lt (Nat.lt_succ_self (W / v)) hvpos
      nlinarith
    have := Nat.lt_of_mul_lt_mul_right this
    omega
  have h4 : W < Q * v ↔ W / v < Q := (Nat.div_lt_iff_lt_mul hvpos).symm
  generalize W / v = q at h1 h3 h4 ⊢
  split <;> rename_i h5 <;> rw [h4] at h5 <;> omega

/-- The loop from position j-1 down divides, for u < v · 2^(32·j). -/
theorem longDivideLoop_spec {v n : Nat} (hn : 2 ≤ n) (hv : v < limbBase ^ n)
    (hT : limbBase ^ (n - 1) ≤ v) (j u : Nat) (hu : u < v * limbBase ^ j) :
    longDivideLoop v n j u = (u / v, u % v) := by
  have hvpos : 0 < v := lt_of_lt_of_le (Nat.pow_pos (by decide)) hT
  induction j generalizing u with
  | zero =>
    rw [pow_zero, Nat.mul_one] at hu
    simp [longDivideLoop, Nat.div_eq_of_lt hu, Nat.mod_eq_of_lt hu]
  | succ j ih =>
    have hpos : 0 < v * limbBase ^ j := Nat.mul_pos hvpos (Nat.pow_pos (by decide))
    have hr : u - u / (v * limbBase ^ j) * v * limbBase ^ j = u % (v * limbBase ^ j) := by
      rw [Nat.mul_assoc, Nat.mul_comm (u / _)]
      have := Nat.div_add_mod u (v * limbBase ^ j)
      omega
    rw [longDivideLoop, quotientDigit_spec hn hv hT hu]
    simp only [hr]
    rw [ih _ (Nat.mod_lt _ hpos)]
    have hs := Nat.div_add_mod u (v * limbBase ^ j)
    generalize u / (v * limbBase ^ j) = q at hs ⊢
    generalize u % (v * limbBase ^ j) = x at hs ⊢
    have hu' : u = v * (q * limbBase ^ j) + x := by rw [← hs]; ring
    rw [hu', Nat.mul_add_div hvpos, Nat.mul_add_mod]

end Sys2Proof.Machine
end

