-- ==== Sys2Proof/Laws/Encoding.lean ====
section
/-! SUPPORT. The command word's fields: packing and reading agree, the decoder's forms undo the encoder,
and an opcode-table row's match and mask say which fields are which. -/

namespace Sys2Proof

/-! ### Fields of a packed word -/

theorem packWord_toNat (op : Nat) (rd re : RegNo) (sa sb sc : Nat) (h : op < 64) (ha : sa < 64)
    (hb : sb < 64) (hc : sc < 64) : (packWord op rd re sa sb sc).toNat =
      op * 2 ^ 26 + rd.val * 2 ^ 22 + re.val * 2 ^ 18 + sa * 2 ^ 12 + sb * 2 ^ 6 + sc := by
  rw [packWord, BitVec.toNat_ofNat]; omega

section
variable {op : Nat} {rd re : RegNo} {sa sb sc : Nat} (h : op < 64) (ha : sa < 64) (hb : sb < 64)
  (hc : sc < 64)
include h ha hb hc

theorem opField_packWord : opField (packWord op rd re sa sb sc) = op := by
  rw [opField, field, packWord_toNat _ _ _ _ _ _ h ha hb hc]; omega

theorem rd_packWord : regField (packWord op rd re sa sb sc) 22 = rd := by
  apply Fin.ext; show field _ _ _ = _
  rw [field, packWord_toNat _ _ _ _ _ _ h ha hb hc]; omega

theorem re_packWord : regField (packWord op rd re sa sb sc) 18 = re := by
  apply Fin.ext; show field _ _ _ = _
  rw [field, packWord_toNat _ _ _ _ _ _ h ha hb hc]; omega

theorem sa_packWord : field (packWord op rd re sa sb sc) 12 6 = sa := by
  rw [field, packWord_toNat _ _ _ _ _ _ h ha hb hc]; omega

theorem sb_packWord : field (packWord op rd re sa sb sc) 6 6 = sb := by
  rw [field, packWord_toNat _ _ _ _ _ _ h ha hb hc]; omega

theorem sc_packWord : field (packWord op rd re sa sb sc) 0 6 = sc := by
  rw [field, packWord_toNat _ _ _ _ _ _ h ha hb hc]; omega

end

theorem field_lt (w : Word) (lo : Nat) : field w lo 6 < 64 := by simp only [field]; omega

/-- A word is the packing of its six fields (R81). -/
theorem packWord_fields (w : Word) : packWord (opField w) (regField w 22) (regField w 18)
    (field w 12 6) (field w 6 6) (field w 0 6) = w := by
  have hw := w.isLt
  apply BitVec.eq_of_toNat_eq
  rw [packWord_toNat _ _ _ _ _ _ (by simp only [opField, field]; omega) (field_lt _ _) (field_lt _ _)
    (field_lt _ _)]
  simp only [opField, regField, field]
  omega

/-! ### Selectors -/

theorem Src.toNat_lt (x : Src) : x.toNat < 64 := by cases x <;> simp [Src.toNat] <;> omega

theorem Src.ofNat_toNat (x : Src) : Src.ofNat x.toNat = x := by
  cases x with
  | reg i => simp [Src.toNat, Src.ofNat]
  | const k => simp [Src.toNat, Src.ofNat]; omega
  | reserved j =>
    have := j.isLt
    unfold Src.ofNat
    rw [dif_neg (by simp only [Src.toNat]; omega), dif_neg (by simp only [Src.toNat]; omega)]
    congr 1; apply Fin.ext; simp only [Src.toNat]; omega

theorem Src.toNat_ofNat (n : Nat) (h : n < 64) : (Src.ofNat n).toNat = n := by
  unfold Src.ofNat
  split
  · rfl
  · split <;> simp [Src.toNat] <;> omega

/-- A selector field is reserved exactly above 0x20 (R84). -/
theorem legal_srcField (w : Word) (lo : Nat) : (srcField w lo).legal = false ↔ 0x20 < field w lo 6 := by
  have := field_lt w lo
  unfold srcField Src.ofNat
  split
  · simp [Src.legal]; omega
  · split <;> simp [Src.legal] <;> omega

theorem regField_eq_iff (w : Word) (lo lo' : Nat) :
    regField w lo = regField w lo' ↔ field w lo 4 = field w lo' 4 := by rw [Fin.ext_iff]; rfl

theorem regField_eq_zero (w : Word) (lo : Nat) : regField w lo = 0 ↔ field w lo 4 = 0 := by
  rw [Fin.ext_iff]; rfl

/-! ### The forms undo the encoder, word by word -/

/-- The encoding half of decode reads back every term, legal or not (R81, R85, R88). -/
theorem decodeForm_encode (i : Instr) : decodeForm (encode i) = some i := by
  cases i with
  | nop => decide
  | movi rd =>
    simp [decodeForm, encode, formD, opField_packWord, rd_packWord, re_packWord, sa_packWord,
      sb_packWord, sc_packWord]
  | mov rd sa =>
    simp [decodeForm, encode, formDA, srcField, Src.ofNat_toNat, Src.toNat_lt, opField_packWord,
      rd_packWord, re_packWord, sa_packWord, sb_packWord, sc_packWord]
  | cmp sa sb =>
    simp [decodeForm, encode, formAB, srcField, Src.ofNat_toNat, Src.toNat_lt, opField_packWord,
      rd_packWord, re_packWord, sa_packWord, sb_packWord, sc_packWord]
  | tstz sa =>
    simp [decodeForm, encode, formA, srcField, Src.ofNat_toNat, Src.toNat_lt, opField_packWord,
      rd_packWord, re_packWord, sa_packWord, sb_packWord, sc_packWord]
  | len sa =>
    simp [decodeForm, encode, formA, srcField, Src.ofNat_toNat, Src.toNat_lt, opField_packWord,
      rd_packWord, re_packWord, sa_packWord, sb_packWord, sc_packWord]
  | div rd re sa sb =>
    simp [decodeForm, encode, formDEAB, srcField, Src.ofNat_toNat, Src.toNat_lt, opField_packWord,
      rd_packWord, re_packWord, sa_packWord, sb_packWord, sc_packWord]
  | load rd =>
    simp [decodeForm, encode, formD, opField_packWord, rd_packWord, re_packWord, sa_packWord,
      sb_packWord, sc_packWord]
  | store sa =>
    simp [decodeForm, encode, formA, srcField, Src.ofNat_toNat, Src.toNat_lt, opField_packWord,
      rd_packWord, re_packWord, sa_packWord, sb_packWord, sc_packWord]
  | storep sa =>
    simp [decodeForm, encode, formA, srcField, Src.ofNat_toNat, Src.toNat_lt, opField_packWord,
      rd_packWord, re_packWord, sa_packWord, sb_packWord, sc_packWord]
  | modpow rd sa sb sc =>
    simp [decodeForm, encode, formDABC, srcField, Src.ofNat_toNat, Src.toNat_lt, opField_packWord,
      rd_packWord, re_packWord, sa_packWord, sb_packWord, sc_packWord]
  | _ rd sa sb =>
    simp [decodeForm, encode, formDAB, srcField, Src.ofNat_toNat, Src.toNat_lt, opField_packWord,
      rd_packWord, re_packWord, sa_packWord, sb_packWord, sc_packWord]

/-- A word of a row is the encoding of the term read from it (R86). -/
theorem encode_decodeForm {w : Word} {i : Instr} (h : decodeForm w = some i) : encode i = w := by
  have key := packWord_fields w
  unfold decodeForm at h
  split at h <;> rename_i ho <;> try cases h
  all_goals
    simp only [formN, formD, formDA, formA, formAB, formDAB, formDEAB, formDABC] at h
    split at h <;> cases h
    rename_i hz
    simp only [encode, srcField, Src.toNat_ofNat _ (field_lt _ _)]
    refine Eq.trans ?_ key
    rw [ho]; simp only [hz]

/-! ### Rows of the opcode table -/

theorem land_field (w : Word) (lo width : Nat) :
    w.toNat &&& (2 ^ width - 1) * 2 ^ lo = field w lo width * 2 ^ lo := by
  unfold field
  apply Nat.eq_of_testBit_eq; intro i
  rw [Nat.testBit_and, Nat.testBit_mul_two_pow, Nat.testBit_mul_two_pow, Nat.testBit_mod_two_pow,
    Nat.testBit_div_two_pow, Nat.testBit_two_pow_sub_one]
  by_cases h : lo ≤ i
  · simp [h, Bool.and_comm]
  · simp [h]


theorem and_add_of_disjoint {n : Nat} (w m m' : BitVec n) (h : m &&& m' = 0#n) :
    w &&& (m + m') = (w &&& m) + (w &&& m') := by
  rw [BitVec.add_eq_or_of_and_eq_zero _ _ h, BitVec.add_eq_or_of_and_eq_zero, BitVec.and_or_distrib_left]
  rw [show w &&& m &&& (w &&& m') = (w &&& w) &&& (m &&& m') by ac_rfl, h, BitVec.and_zero]

/-- The bits of one field of `width` bits at `lo`, or none. -/
def fieldMask (use : Bool) (lo width : Nat) : Word :=
  if use then BitVec.ofNat 32 ((2 ^ width - 1) * 2 ^ lo) else 0

theorem and_fieldMask (w : Word) (use : Bool) (lo width : Nat)
    (h : (2 ^ width - 1) * 2 ^ lo < 2 ^ 32) :
    (w &&& fieldMask use lo width).toNat ≤ (2 ^ width - 1) * 2 ^ lo ∧
    ((w &&& fieldMask use lo width).toNat = 0 ↔ (use = true → field w lo width = 0)) ∧
    (use = true → (w &&& fieldMask use lo width).toNat = field w lo width * 2 ^ lo) := by
  unfold fieldMask
  cases use
  · simp
  · have hf : field w lo width ≤ 2 ^ width - 1 := by
      have := Nat.mod_lt (w.toNat / 2 ^ lo) (Nat.two_pow_pos width)
      unfold field; omega
    simp only [if_true]
    rw [BitVec.toNat_and, BitVec.toNat_ofNat, Nat.mod_eq_of_lt h, land_field]
    exact ⟨Nat.mul_le_mul_right _ hf, by simp, fun _ => rfl⟩

/-- A word is a row's when its opcode is the row's and the fields that the mask has are 0 (R86). The
flags say which of rd, re, sa, sb, sc the mask has. -/
theorem matchesWord_iff {r : OpcodeRow} (w : Word) (op : Nat) (rd re sa sb sc : Bool) (ho : op < 64)
    (hm : r.mask = fieldMask true 26 6 + (fieldMask rd 22 4 + (fieldMask re 18 4 + (fieldMask sa 12 6 +
      (fieldMask sb 6 6 + fieldMask sc 0 6)))))
    (hp : r.pattern = BitVec.ofNat 32 (op * 2 ^ 26)) :
    r.matchesWord w = true ↔ opField w = op ∧ (rd = true → regField w 22 = 0) ∧
      (re = true → regField w 18 = 0) ∧ (sa = true → field w 12 6 = 0) ∧
      (sb = true → field w 6 6 = 0) ∧ (sc = true → field w 0 6 = 0) := by
  have ef : opField w = field w 26 6 := rfl
  rw [OpcodeRow.matchesWord, beq_iff_eq, hm, hp, and_add_of_disjoint, and_add_of_disjoint,
    and_add_of_disjoint, and_add_of_disjoint, and_add_of_disjoint,
    ← BitVec.toNat_inj]
  · simp only [BitVec.toNat_add, BitVec.toNat_ofNat, regField_eq_zero, ef, Nat.add_mod_mod]
    have h1 := (and_fieldMask w true 26 6 (by decide))
    have h2 := (and_fieldMask w rd 22 4 (by decide))
    have h3 := (and_fieldMask w re 18 4 (by decide))
    have h4 := (and_fieldMask w sa 12 6 (by decide))
    have h5 := (and_fieldMask w sb 6 6 (by decide))
    have h6 := (and_fieldMask w sc 0 6 (by decide))
    have e := h1.2.2 rfl
    rw [← h2.2.1, ← h3.2.1, ← h4.2.1, ← h5.2.1, ← h6.2.1]
    replace h1 := h1.1; replace h2 := h2.1; replace h3 := h3.1
    replace h4 := h4.1; replace h5 := h5.1; replace h6 := h6.1
    rw [e] at h1 ⊢
    omega
  all_goals clear hm; revert rd re sa sb sc; decide

end Sys2Proof
end

