-- ==== Sys2Proof/Laws/Engines.lean ====
section
/-! SUPPORT. What the engines of GCD, MODINV, MODPOW and JACOBI compute: the loop invariants of R166, R168,
R171 and R187, and the values they end at. The limb engines are left to the statements about them. -/

namespace Sys2Proof.Machine

/-! ### Euclid (R166) -/

theorem euclidLoop_eq (f x y : Nat) (h : y < f) : euclidLoop f x y = Nat.gcd x y := by
  induction f generalizing x y with
  | zero => omega
  | succ f ih =>
    unfold euclidLoop
    split
    · next h0 => subst h0; simp
    · next h0 =>
      rw [ih _ _ (by have := Nat.mod_lt x (Nat.pos_of_ne_zero h0); omega), Nat.gcd_comm x y,
        Nat.gcd_rec y x, Nat.gcd_comm]

theorem euclid_eq (a b : Nat) : euclid a b = Nat.gcd a b := euclidLoop_eq _ _ _ (by omega)

/-! ### Square and multiply (R171) -/

/-- The loop keeps acc · p^x mod m, and its result is below m once it has run. -/
theorem modpowLoop_eq (m : Nat) (f acc p x : Nat) (h : x < f) (hm : 0 < m) :
    modpowLoop m f acc p x % m = acc * p ^ x % m ∧ (0 < x → modpowLoop m f acc p x < m) ∧
      (x = 0 → modpowLoop m f acc p x = acc) := by
  induction f generalizing acc p x with
  | zero => omega
  | succ f ih =>
    unfold modpowLoop
    split
    · next h0 => subst h0; simp
    · next h0 =>
      obtain ⟨i1, i2, i3⟩ :=
        ih (if x % 2 = 1 then acc * p % m else acc) (p * p % m) (x / 2) (by omega)
      refine ⟨?_, fun _ => ?_, fun h => absurd h h0⟩
      · rw [i1]
        have hx : p ^ x = (if x % 2 = 1 then p else 1) * (p * p) ^ (x / 2) := by
          rw [← pow_two, ← pow_mul]
          split
          · rw [← pow_succ']; congr 1; omega
          · rw [one_mul]; congr 1; omega
        rw [hx]
        have key : ∀ u : Nat, u % m = (acc * (if x % 2 = 1 then p else 1)) % m →
            u * (p * p % m) ^ (x / 2) % m =
              acc * ((if x % 2 = 1 then p else 1) * (p * p) ^ (x / 2)) % m := by
          intro u hu
          rw [← mul_assoc, Nat.mul_mod, hu, ← Nat.pow_mod, ← Nat.mul_mod]
        apply key
        split <;> simp
      · by_cases hx : x / 2 = 0
        · rw [i3 hx]
          have : x % 2 = 1 := by omega
          rw [if_pos this]; exact Nat.mod_lt _ hm
        · exact i2 (by omega)

theorem modpow_eq (b e m : Nat) (hm : 0 < m) :
    modpow b e m = if e = 0 then 1 else b ^ e % m := by
  obtain ⟨h1, h2, h3⟩ := modpowLoop_eq m (e + 1) 1 b e (by omega) hm
  unfold modpow
  split
  · next h => exact h3 h
  · next h => rw [← Nat.mod_eq_of_lt (h2 (by omega)), h1, one_mul]

/-! ### Extended Euclid (R168) -/

/-- The loop keeps t_i · a ≡ r_i (mod m) with every t_i below m, and ends at the gcd. -/
theorem inverseLoop_spec (a m f r0 r1 t0 t1 : Nat) (hf : r1 < f) (hm : 2 ≤ m)
    (h0 : t0 * a % m = r0 % m) (h1 : t1 * a % m = r1 % m) (l0 : t0 < m)
    (l1 : t1 < m) :
    (inverseLoop m f r0 r1 t0 t1).1 = Nat.gcd r0 r1 ∧ (inverseLoop m f r0 r1 t0 t1).2 < m ∧
      (inverseLoop m f r0 r1 t0 t1).2 * a % m = Nat.gcd r0 r1 % m := by
  induction f generalizing r0 r1 t0 t1 with
  | zero => omega
  | succ f ih =>
    unfold inverseLoop
    split
    · next h => subst h; simpa using ⟨l0, h0⟩
    · next h =>
      have hlt := Nat.mod_lt r0 (Nat.pos_of_ne_zero h)
      have hc := Nat.mod_lt (r0 / r1 * t1) (show 0 < m by omega)
      rw [Nat.gcd_comm r0 r1, Nat.gcd_rec r1 r0, Nat.gcd_comm]
      apply ih _ _ _ _ (by omega) h1 ?_ l1 ?_
      · have e : ((r0 % r1 : Nat) : ZMod m) =
            (r0 : ZMod m) - ((r0 / r1 : Nat) : ZMod m) * (r1 : ZMod m) := by
          have := Nat.div_add_mod r0 r1
          have h2 : ((r1 * (r0 / r1) + r0 % r1 : Nat) : ZMod m) = (r0 : ZMod m) := by rw [this]
          push_cast at h2
          rw [← h2]; ring
        have h0' : ((t0 * a : Nat) : ZMod m) = (r0 : ZMod m) :=
          (ZMod.natCast_eq_natCast_iff' _ _ _).2 h0
        have h1' : ((t1 * a : Nat) : ZMod m) = (r1 : ZMod m) :=
          (ZMod.natCast_eq_natCast_iff' _ _ _).2 h1
        apply (ZMod.natCast_eq_natCast_iff' _ _ _).1
        push_cast at h0' h1'
        have hcc : (((r0 / r1 * t1 % m : Nat)) : ZMod m) =
            ((r0 / r1 : Nat) : ZMod m) * (t1 : ZMod m) := by
          rw [ZMod.natCast_mod, Nat.cast_mul]
        rw [e, ← h0', ← h1']
        split
        · next hle => push_cast [Nat.cast_sub hle]; rw [hcc]; ring
        · next hle =>
          rw [Nat.cast_mul, Nat.cast_sub (by omega), Nat.cast_sub (by omega), hcc]
          simp; ring
      · split <;> omega

/-- NOT_INVERTIBLE exactly when gcd(a, m) ≠ 1, else an inverse below m. -/
theorem inverse_spec (a m : Nat) (hm : 2 ≤ m) :
    (Nat.gcd a m ≠ 1 → inverse a m = none) ∧
      (Nat.gcd a m = 1 → ∃ x, inverse a m = some x ∧ x < m ∧ a * x % m = 1) := by
  obtain ⟨h1, h2, h3⟩ := inverseLoop_spec a m (m + 1) m (a % m) 0 1
    (by have := Nat.mod_lt a (show 0 < m by omega); omega) hm (by simp) (by simp) (by omega) (by omega)
  have hg : Nat.gcd m (a % m) = Nat.gcd a m := by rw [Nat.gcd_comm a m, Nat.gcd_rec m a, Nat.gcd_comm]
  rw [hg] at h1 h3
  unfold inverse
  constructor
  · intro h; simp only; rw [if_neg (by rw [h1]; exact h)]
  · intro h
    refine ⟨_, by simp only; rw [if_pos (by rw [h1]; exact h)], h2, ?_⟩
    rw [mul_comm, h3, h]; exact Nat.mod_eq_of_lt hm

/-! ### Jacobi (R187) -/

/-- Taking out the twos keeps the symbol and leaves an odd number. -/
theorem stripTwos_spec (n : Nat) (hn : n % 2 = 1) (f a : Nat) (t : Int) (hf : a ≤ f)
    (ha : 0 < a) :
    (stripTwos n f a t).1 % 2 = 1 ∧ (stripTwos n f a t).1 ≤ a ∧ 0 < (stripTwos n f a t).1 ∧
    (stripTwos n f a t).2 * jacobiSym ((stripTwos n f a t).1) n = t * jacobiSym a n := by
  induction f generalizing a t with
  | zero => omega
  | succ f ih =>
    unfold stripTwos
    split
    · next h =>
      obtain ⟨i1, i2, i3, i4⟩ :=
        ih (a / 2) (if n % 8 = 3 ∨ n % 8 = 5 then -t else t) (by omega) (by omega)
      refine ⟨i1, i2.trans (Nat.div_le_self _ _), i3, ?_⟩
      rw [i4]
      have e : jacobiSym (a : Int) n = jacobiSym 2 n * jacobiSym ((a / 2 : Nat) : Int) n := by
        rw [← jacobiSym.mul_left]; congr 1; push_cast; omega
      rw [e, jacobiSym.at_two (Nat.odd_iff.2 hn), ZMod.χ₈_nat_eq_if_mod_eight]
      have hn2 : ¬ n % 2 = 0 := by omega
      rw [if_neg hn2]
      by_cases h35 : n % 8 = 3 ∨ n % 8 = 5
      · rw [if_pos h35, if_neg (by omega)]; ring
      · rw [if_neg h35, if_pos (by omega)]; ring
    · next h => exact ⟨by omega, by simp, ha, rfl⟩

/-- The loop's result is the sign times the symbol. -/
theorem jacobiLoop_spec (f a n : Nat) (t : Int) (hf : n < f) (hn : n % 2 = 1) (ha : a < n) :
    jacobiLoop f a n t = t * jacobiSym a n := by
  induction f generalizing a n t with
  | zero => omega
  | succ f ih =>
    unfold jacobiLoop
    split
    · next h =>
      subst h
      split
      · next h1 => subst h1; simp
      · next h1 =>
        have : jacobiSym ((0:Nat):Int) n = 0 := by simpa using jacobiSym.zero_left (by omega : 1 < n)
        rw [this]; simp
    · next h =>
      obtain ⟨i1, i2, i3, i4⟩ := stripTwos_spec n hn a a t (Nat.le_refl _) (by omega)
      generalize hs : stripTwos n a a t = st at *
      obtain ⟨a', t'⟩ := st
      simp only at *
      rw [ih _ _ _ (by omega) i1 (Nat.mod_lt n i3), ← i4]
      have e : jacobiSym ((n % a' : Nat) : Int) a' = jacobiSym n a' := by
        rw [Int.natCast_mod, ← jacobiSym.mod_left]
      rw [e, ← jacobiSym.quadratic_reciprocity_if i1 hn]
      by_cases hc : n % 4 = 3 ∧ a' % 4 = 3
      · rw [if_pos hc, if_pos hc.symm]; ring
      · rw [if_neg hc, if_neg (fun h => hc h.symm)]

theorem jacobi_eq (a n : Nat) (hn : n % 2 = 1) : jacobi a n = jacobiSym a n := by
  have h0 : 0 < n := by omega
  rw [jacobi, jacobiLoop_spec _ _ _ _ (by omega) hn (Nat.mod_lt a h0), one_mul, Int.natCast_mod,
    ← jacobiSym.mod_left]

end Sys2Proof.Machine
end

