-- ==== Sys2Proof/Laws/Memory.lean ====
section
/-! SUPPORT. The laws of LMEM: every operation keeps the canonical form, a read after a write, and equal
contents are equal lists. -/

namespace Sys2Proof.Machine

namespace Memory

/-- Above a lower bound means above a smaller one, and the form itself. -/
theorem wfAbove_weaken {m : Memory} {l : Nat} {o : Option Nat} (h : wfAbove (some l) m = true)
    (ho : ∀ k, o = some k → k ≤ l) : wfAbove o m = true := by
  cases m with
  | nil => cases o <;> rfl
  | cons p m =>
    obtain ⟨k, b⟩ := p
    simp only [wfAbove, Bool.and_eq_true, decide_eq_true_eq] at h ⊢
    refine ⟨⟨?_, h.1.2⟩, h.2⟩
    cases o with
    | none => rfl
    | some j => have := ho j rfl; simp; omega

theorem read_below {m : Memory} {l a : Nat} (h : wfAbove (some l) m = true) (ha : a ≤ l) :
    m.read a = unlisted := by
  induction m generalizing l with
  | nil => rfl
  | cons p m ih =>
    obtain ⟨k, b⟩ := p
    simp only [wfAbove, Bool.and_eq_true, decide_eq_true_eq] at h
    rw [read, if_neg (by omega)]
    exact ih h.2 (by omega)

theorem wfAbove_write {m : Memory} {o : Option Nat} {a : Nat} {v : BitVec 8}
    (h : wfAbove o m = true) (ho : ∀ k, o = some k → k < a) : wfAbove o (m.write a v) = true := by
  induction m generalizing o with
  | nil =>
    by_cases hv : v = unlisted
    · rw [write, if_pos hv]; exact h
    · rw [write, if_neg hv]
      cases o with
      | none => simp [wfAbove, hv]
      | some k => simp [wfAbove, hv, ho k rfl]
  | cons p m ih =>
    obtain ⟨k, b⟩ := p
    have h' := h
    simp only [wfAbove, Bool.and_eq_true] at h'
    by_cases h1 : a < k
    · by_cases hv : v = unlisted
      · rw [write, if_pos h1, if_pos hv]; exact h
      · rw [write, if_pos h1, if_neg hv]
        simp only [wfAbove, Bool.and_eq_true, decide_eq_true_eq]
        refine ⟨⟨?_, by simpa using hv⟩, ⟨h1, h'.1.2⟩, h'.2⟩
        cases o with
        | none => rfl
        | some j => simpa using ho j rfl
    · by_cases h2 : a = k
      · by_cases hv : v = unlisted
        · rw [write, if_neg h1, if_pos h2, if_pos hv]
          exact wfAbove_weaken h'.2 fun j hj => by have := ho j hj; omega
        · rw [write, if_neg h1, if_pos h2, if_neg hv]
          simp only [wfAbove, Bool.and_eq_true]
          exact ⟨⟨h'.1.1, by simpa using hv⟩, h'.2⟩
      · rw [write, if_neg h1, if_neg h2]
        simp only [wfAbove, Bool.and_eq_true]
        exact ⟨⟨h'.1.1, h'.1.2⟩, ih h'.2 fun j hj => by injection hj with e; omega⟩

/-- A byte write keeps the canonical form. -/
theorem wf_write {m : Memory} (h : m.wf = true) (a : Nat) (v : BitVec 8) : (m.write a v).wf = true :=
  wfAbove_write h (by simp)

theorem read_write_same_above {m : Memory} {o : Option Nat} (h : wfAbove o m = true) (a : Nat)
    (v : BitVec 8) : (m.write a v).read a = v := by
  induction m generalizing o with
  | nil =>
    by_cases hv : v = unlisted
    · rw [write, if_pos hv]; exact hv.symm
    · rw [write, if_neg hv]; simp [read]
  | cons p m ih =>
    obtain ⟨k, b⟩ := p
    simp only [wfAbove, Bool.and_eq_true] at h
    by_cases h1 : a < k
    · by_cases hv : v = unlisted
      · rw [write, if_pos h1, if_pos hv, read, if_neg (by omega), hv]
        exact read_below h.2 (by omega)
      · rw [write, if_pos h1, if_neg hv]; simp [read]
    · by_cases h2 : a = k
      · by_cases hv : v = unlisted
        · rw [write, if_neg h1, if_pos h2, if_pos hv, hv]
          exact read_below h.2 (by omega)
        · rw [write, if_neg h1, if_pos h2, if_neg hv]; simp [read, h2]
      · rw [write, if_neg h1, if_neg h2, read, if_neg h2]
        exact ih h.2

/-- A read of the byte just written. -/
theorem read_write_same {m : Memory} (h : m.wf = true) (a : Nat) (v : BitVec 8) :
    (m.write a v).read a = v := read_write_same_above h a v

/-- A write leaves every other byte alone. -/
theorem read_write_other (m : Memory) {a c : Nat} (v : BitVec 8) (hc : c ≠ a) :
    (m.write a v).read c = m.read c := by
  induction m with
  | nil =>
    by_cases hv : v = unlisted
    · rw [write, if_pos hv]
    · rw [write, if_neg hv]; simp [read, hc]
  | cons p m ih =>
    obtain ⟨k, b⟩ := p
    by_cases h1 : a < k
    · by_cases hv : v = unlisted
      · rw [write, if_pos h1, if_pos hv]
      · rw [write, if_pos h1, if_neg hv]; simp [read, hc]
    · by_cases h2 : a = k
      · by_cases hv : v = unlisted
        · rw [write, if_neg h1, if_pos h2, if_pos hv, read, if_neg (by omega)]
        · rw [write, if_neg h1, if_pos h2, if_neg hv]
          simp only [read]
          rw [if_neg (by omega : ¬c = k), if_neg (by omega : ¬c = k)]
      · rw [write, if_neg h1, if_neg h2]
        simp only [read, ih]

theorem within_write {m : Memory} {n a : Nat} (h : m.within n = true) (ha : a < n) (v : BitVec 8) :
    (m.write a v).within n = true := by
  induction m with
  | nil => by_cases hv : v = unlisted <;> simp [write, hv, within, ha]
  | cons p m ih =>
    obtain ⟨k, b⟩ := p
    simp only [within, List.all_cons, Bool.and_eq_true, decide_eq_true_eq] at h ih
    have h2 := h.2
    unfold write within
    split_ifs <;> try simp only [List.all_cons, Bool.and_eq_true, decide_eq_true_eq]
    all_goals first | exact h | exact ⟨ha, h⟩ | exact h2 | exact ⟨h.1, ih h2⟩

/-- Canonical memories that read alike are the same list. -/
theorem ext_above {m m' : Memory} {o o' : Option Nat} (h : wfAbove o m = true)
    (h' : wfAbove o' m' = true) (he : ∀ a, m.read a = m'.read a) : m = m' := by
  induction m generalizing o o' m' with
  | nil =>
    cases m' with
    | nil => rfl
    | cons p m' =>
      obtain ⟨k, b⟩ := p
      simp only [wfAbove, Bool.and_eq_true, bne_iff_ne] at h'
      exact absurd (by simpa [read] using (he k).symm) h'.1.2
  | cons p m ih =>
    obtain ⟨k, b⟩ := p
    simp only [wfAbove, Bool.and_eq_true, bne_iff_ne] at h
    cases m' with
    | nil => exact absurd (by simpa [read] using he k) h.1.2
    | cons p' m' =>
      obtain ⟨k', b'⟩ := p'
      simp only [wfAbove, Bool.and_eq_true, bne_iff_ne] at h'
      have hk : k = k' := by
        rcases Nat.lt_trichotomy k k' with l | e | l
        · have := he k
          rw [read, if_pos rfl, read, if_neg (by omega), read_below h'.2 (by omega)] at this
          exact absurd this h.1.2
        · exact e
        · have := he k'
          rw [read, if_neg (by omega), read_below h.2 (by omega), read, if_pos rfl] at this
          exact absurd this.symm h'.1.2
      subst hk
      have hb : b = b' := by simpa [read] using he k
      subst hb
      rw [ih h.2 h'.2 fun a => ?_]
      by_cases ha : a = k
      · subst ha; rw [read_below h.2 (Nat.le_refl _), read_below h'.2 (Nat.le_refl _)]
      · simpa [read, ha] using he a

theorem ext_read {m m' : Memory} (h : m.wf = true) (h' : m'.wf = true)
    (he : ∀ a, m.read a = m'.read a) : m = m' := ext_above h h' he

end Memory

/-! ### MemRead and MemWrite -/

/-- MemWrite keeps the canonical form. -/
theorem wf_memWrite {m : Memory} (h : m.wf = true) (a n v : Nat) : (memWrite m a n v).wf = true := by
  induction n generalizing m a v with
  | zero => exact h
  | succ n ih => exact ih (Memory.wf_write h _ _) _ _

theorem within_memWrite {m : Memory} {k a n : Nat} (h : m.within k = true) (ha : a + n ≤ k) (v : Nat) :
    (memWrite m a n v).within k = true := by
  induction n generalizing m a v with
  | zero => exact h
  | succ n ih => exact ih (Memory.within_write h (by omega) _) (by omega) _

/-- MemWrite leaves every byte outside addr .. addr+n-1 alone (R67). -/
theorem read_memWrite_outside (m : Memory) (a n v : Nat) {c : Nat} (hc : c < a ∨ a + n ≤ c) :
    (memWrite m a n v).read c = m.read c := by
  induction n generalizing m a v with
  | zero => rfl
  | succ n ih => rw [memWrite, ih _ _ _ (by omega), Memory.read_write_other _ _ (by omega)]

/-- MemWrite sets byte addr+i to (v div 2^(8·i)) mod 256 (R67). -/
theorem read_memWrite_inside {m : Memory} (h : m.wf = true) (a n v : Nat) {i : Nat} (hi : i < n) :
    (memWrite m a n v).read (a + i) = BitVec.ofNat 8 (v / 256 ^ i) := by
  induction n generalizing m a v i with
  | zero => omega
  | succ n ih =>
    rw [memWrite]
    cases i with
    | zero =>
      rw [read_memWrite_outside _ _ _ _ (by omega), Nat.add_zero, Memory.read_write_same h]
      simp
    | succ i =>
      have := ih (Memory.wf_write h a (BitVec.ofNat 8 v)) (a + 1) (v / 256) (i := i) (by omega)
      rw [show a + (i + 1) = a + 1 + i by omega, this, Nat.div_div_eq_div_mul, Nat.pow_succ']

/-- MemRead reads bytes, nothing else. -/
theorem memRead_congr {m m' : Memory} {a n : Nat} (h : ∀ i, i < n → m.read (a + i) = m'.read (a + i)) :
    memRead m a n = memRead m' a n := by
  induction n generalizing a with
  | zero => rfl
  | succ n ih =>
    rw [memRead, memRead, show m.read a = m'.read a from h 0 (by omega),
      ih fun i hi => by rw [show a + 1 + i = a + (i + 1) by omega]; exact h (i + 1) (by omega)]

theorem memRead_lt (m : Memory) (a n : Nat) : memRead m a n < 256 ^ n := by
  induction n generalizing a with
  | zero => simp [memRead]
  | succ n ih =>
    have h1 := ih (a + 1)
    have h2 := (m.read a).isLt
    rw [memRead, Nat.pow_succ']
    omega

/-- MemRead is Σ LMEM[addr+i] · 2^(8·i), said digit by digit (R66). -/
theorem memRead_eq_of_digits (m : Memory) (a n v : Nat)
    (h : ∀ i, i < n → m.read (a + i) = BitVec.ofNat 8 (v / 256 ^ i)) :
    memRead m a n = v % 256 ^ n := by
  induction n generalizing a v with
  | zero => simp [memRead, Nat.mod_one]
  | succ n ih =>
    have h0 := h 0 (by omega)
    simp only [Nat.add_zero, Nat.pow_zero, Nat.div_one] at h0
    rw [memRead, h0, ih (a + 1) (v / 256) fun i hi => by
      rw [show a + 1 + i = a + (i + 1) by omega, h (i + 1) (by omega), Nat.div_div_eq_div_mul,
        Nat.pow_succ']]
    rw [BitVec.toNat_ofNat, Nat.pow_succ' (m := 256), Nat.mod_mul]

/-- A free draw gives a canonical memory inside the array. -/
theorem drawMemory_wf (n : Nat) (draw : List (Nat × BitVec 8)) :
    (drawMemory n draw).wf = true ∧ (drawMemory n draw).within n = true := by
  unfold drawMemory
  suffices ∀ m : Memory, m.wf = true ∧ m.within n = true →
      (draw.foldl (fun (m : Memory) c => if c.1 < n then m.write c.1 c.2 else m) m).wf = true ∧
      (Memory.within n
        (draw.foldl (fun (m : Memory) c => if c.1 < n then m.write c.1 c.2 else m) m)) = true from
    this [] ⟨rfl, rfl⟩
  induction draw with
  | nil => exact fun m h => h
  | cons c draw ih =>
    intro m h
    simp only [List.foldl_cons]
    split
    · next hc => exact ih _ ⟨Memory.wf_write h.1 _ _, Memory.within_write h.2 hc _⟩
    · exact ih _ h

/-- Byte j of MemRead is the byte at addr + j: little-endian (R66, R68). -/
theorem memRead_digit (m : Memory) (a n : Nat) {j : Nat} (hj : j < n) :
    memRead m a n / 256 ^ j % 256 = (m.read (a + j)).toNat := by
  induction n generalizing a j with
  | zero => omega
  | succ n ih =>
    have hb := (m.read a).isLt
    cases j with
    | zero => simp only [memRead, pow_zero, Nat.div_one, Nat.add_zero]; omega
    | succ j =>
      rw [memRead, pow_succ', ← Nat.div_div_eq_div_mul, show ((m.read a).toNat + 256 * memRead m (a + 1) n) / 256
        = memRead m (a + 1) n by omega, ih _ (by omega), Nat.add_assoc, Nat.add_comm 1 j]

/-- Drawing leaves a byte that the draw does not name. -/
theorem draw_read_other (n : Nat) (draw : List (Nat × BitVec 8)) (m : Memory) {a : Nat}
    (h : a ∉ draw.map Prod.fst) :
    (draw.foldl (fun m c => if c.1 < n then m.write c.1 c.2 else m) m).read a = m.read a := by
  induction draw generalizing m with
  | nil => rfl
  | cons p draw ih =>
    simp only [List.map_cons, List.mem_cons, not_or] at h
    rw [List.foldl_cons, ih _ h.2]
    split
    · exact Memory.read_write_other _ _ h.1
    · rfl

/-- A drawn byte inside the array is what LMEM holds after reset (R65, U1). -/
theorem draw_read (n : Nat) (draw : List (Nat × BitVec 8)) (m : Memory) (hm : m.wf = true)
    (hn : (draw.map Prod.fst).Nodup) {c : Nat × BitVec 8} (hc : c ∈ draw) (hl : c.1 < n) :
    (draw.foldl (fun m c => if c.1 < n then m.write c.1 c.2 else m) m).read c.1 = c.2 := by
  induction draw generalizing m with
  | nil => cases hc
  | cons p draw ih =>
    simp only [List.map_cons, List.nodup_cons] at hn
    rw [List.foldl_cons]
    rcases List.mem_cons.1 hc with rfl | hc
    · rw [draw_read_other _ _ _ hn.1, if_pos hl]
      exact Memory.read_write_same hm _ _
    · refine ih _ ?_ hn.2 hc
      split
      · exact Memory.wf_write hm _ _
      · exact hm

end Sys2Proof.Machine
end

