-- ==== Sys2Proof/Laws/Operands.lean ====
section
/-! SUPPORT. What the operand readers answer: the command's own outcome when every source is readable,
UNINIT or ILLEGAL_OPERAND else, and the buffer check's outcome (R84, R150, R206). -/

namespace Sys2Proof.Machine

variable {s : State} {sa sb sc : Src} {a b c : Nat}

theorem readSrc_of_operand (h : Operand s sa a) : readSrc s sa = .ok a := by
  cases sa with
  | reg i => simp only [readSrc, h.1, if_true, h.2]
  | const k => simp only [readSrc, show a = k.val from h]
  | reserved j => exact h.elim

theorem operand_of_readSrc (h : readSrc s sa = .ok a) : Operand s sa a := by
  cases sa with
  | reg i =>
    simp only [readSrc] at h
    split at h
    · next hv => exact ⟨hv, by injection h⟩
    · cases h
  | const k => injection h with h; exact h.symm
  | reserved j => cases h

theorem legal_of_operand (h : Operand s sa a) : sa.legal = true := by
  cases sa <;> first | rfl | exact h.elim

theorem legal_of_uninit (h : Uninit s sa) : sa.legal = true := by
  cases sa <;> first | rfl | exact h.elim

theorem readSrc_of_uninit (h : Uninit s sa) : readSrc s sa = .error .uninit := by
  cases sa with
  | reg i => simp only [readSrc, show (s.breg[i]).valid = false from h]; rfl
  | const k => exact h.elim
  | reserved j => exact h.elim

/-- A legal source is readable or names a register nothing has written. -/
theorem operand_or_uninit (h : sa.legal = true) : (∃ a, Operand s sa a) ∨ Uninit s sa := by
  cases sa with
  | reg i =>
    cases hv : (s.breg[i]).valid with
    | true => exact .inl ⟨_, hv, rfl⟩
    | false => exact .inr hv
  | const k => exact .inl ⟨k.val, rfl⟩
  | reserved j => cases h

/-- The read of a legal source is its value or UNINIT. -/
theorem readSrc_cases (h : sa.legal = true) :
    (∃ a, Operand s sa a ∧ readSrc s sa = .ok a) ∨ (Uninit s sa ∧ readSrc s sa = .error .uninit) := by
  obtain ⟨a, ha⟩ | hu := operand_or_uninit (s := s) h
  · exact .inl ⟨a, ha, readSrc_of_operand ha⟩
  · exact .inr ⟨hu, readSrc_of_uninit hu⟩

theorem not_operand_of_uninit (h : Uninit s sa) : ¬Operand s sa a := by
  cases sa with
  | reg i => intro h'; exact Bool.noConfusion ((show (s.breg[i]).valid = false from h).symm.trans h'.1)
  | const k => exact h.elim
  | reserved j => exact h.elim

theorem operand_unique (h : Operand s sa a) (h' : Operand s sa b) : a = b := by
  have := (readSrc_of_operand h).symm.trans (readSrc_of_operand h')
  injection this

/-! ### One, two and three sources -/

theorem withSrc_operand {k : Nat → CmdOutcome} (ha : Operand s sa a) : withSrc s sa k = k a := by
  rw [withSrc, if_pos (legal_of_operand ha), readSrc_of_operand ha]

theorem withSrc_illegal {k : Nat → CmdOutcome} (h : sa.legal = false) :
    withSrc s sa k = .error .illegalOperand := by rw [withSrc, h]; rfl

theorem withSrc_uninit {k : Nat → CmdOutcome} (h : Uninit s sa) :
    withSrc s sa k = .error .uninit := by
  rw [withSrc, if_pos (legal_of_uninit h), readSrc_of_uninit h]

theorem withSrcs_operand {k : Nat → Nat → CmdOutcome} (ha : Operand s sa a) (hb : Operand s sb b) :
    withSrcs s sa sb k = k a b := by
  rw [withSrcs, if_pos (by rw [legal_of_operand ha, legal_of_operand hb]; rfl),
    readSrc_of_operand ha, readSrc_of_operand hb]

theorem withSrcs_illegal {k : Nat → Nat → CmdOutcome} (h : sa.legal = false ∨ sb.legal = false) :
    withSrcs s sa sb k = .error .illegalOperand := by
  rw [withSrcs, if_neg (by rcases h with h | h <;> simp [h])]

theorem withSrcs_uninit {k : Nat → Nat → CmdOutcome} (ha : sa.legal = true) (hb : sb.legal = true)
    (h : Uninit s sa ∨ Uninit s sb) : withSrcs s sa sb k = .error .uninit := by
  rw [withSrcs, if_pos (by rw [ha, hb]; rfl)]
  rcases h with h | h
  · rw [readSrc_of_uninit h]
  · rw [readSrc_of_uninit h]
    obtain ⟨a, _, e⟩ | ⟨_, e⟩ := readSrc_cases (s := s) ha <;> rw [e]

theorem withSrcs3_operand {k : Nat → Nat → Nat → CmdOutcome} (ha : Operand s sa a)
    (hb : Operand s sb b) (hc : Operand s sc c) : withSrcs3 s sa sb sc k = k a b c := by
  rw [withSrcs3, if_pos (legal_of_operand hc), withSrcs_operand ha hb, readSrc_of_operand hc]

theorem withSrcs3_illegal {k : Nat → Nat → Nat → CmdOutcome}
    (h : sa.legal = false ∨ sb.legal = false ∨ sc.legal = false) :
    withSrcs3 s sa sb sc k = .error .illegalOperand := by
  rw [withSrcs3]
  split
  · next hc =>
    exact withSrcs_illegal (by
      rcases h with h | h | h
      · exact .inl h
      · exact .inr h
      · exact Bool.noConfusion (hc.symm.trans h))
  · rfl

theorem withSrcs3_uninit {k : Nat → Nat → Nat → CmdOutcome} (ha : sa.legal = true)
    (hb : sb.legal = true) (hc : sc.legal = true)
    (h : Uninit s sa ∨ Uninit s sb ∨ Uninit s sc) : withSrcs3 s sa sb sc k = .error .uninit := by
  rw [withSrcs3, if_pos hc]
  obtain ⟨a, oa⟩ | ua := operand_or_uninit (s := s) ha
  · obtain ⟨b, ob⟩ | ub := operand_or_uninit (s := s) hb
    · rw [withSrcs_operand oa ob]
      rcases h with h | h | h
      · exact absurd oa (not_operand_of_uninit h)
      · exact absurd ob (not_operand_of_uninit h)
      · rw [readSrc_of_uninit h]
    · exact withSrcs_uninit ha hb (.inr ub)
  · exact withSrcs_uninit ha hb (.inl ua)

/-! ### Inversion: a success says every source was readable -/

theorem withSrc_ok {k : Nat → CmdOutcome} {w : Writes} (h : withSrc s sa k = .ok w) :
    ∃ a, Operand s sa a ∧ k a = .ok w := by
  unfold withSrc at h
  split at h
  · next hl =>
    obtain ⟨a, ha, e⟩ | ⟨_, e⟩ := readSrc_cases (s := s) hl <;> rw [e] at h
    · exact ⟨a, ha, h⟩
    · cases h
  · cases h

theorem withSrcs_ok {k : Nat → Nat → CmdOutcome} {w : Writes} (h : withSrcs s sa sb k = .ok w) :
    ∃ a b, Operand s sa a ∧ Operand s sb b ∧ k a b = .ok w := by
  unfold withSrcs at h
  split at h
  · next hl =>
    rw [Bool.and_eq_true] at hl
    obtain ⟨a, ha, e⟩ | ⟨_, e⟩ := readSrc_cases (s := s) hl.1
    · obtain ⟨b, hb, e'⟩ | ⟨_, e'⟩ := readSrc_cases (s := s) hl.2 <;> rw [e, e'] at h
      · exact ⟨a, b, ha, hb, h⟩
      · cases h
    · rw [e] at h; cases h
  · cases h

theorem withSrcs3_ok {k : Nat → Nat → Nat → CmdOutcome} {w : Writes}
    (h : withSrcs3 s sa sb sc k = .ok w) :
    ∃ a b c, Operand s sa a ∧ Operand s sb b ∧ Operand s sc c ∧ k a b c = .ok w := by
  unfold withSrcs3 at h
  split at h
  · next hl =>
    obtain ⟨a, b, ha, hb, hk⟩ := withSrcs_ok h
    obtain ⟨c, hc, e⟩ | ⟨_, e⟩ := readSrc_cases (s := s) hl <;> rw [e] at hk
    · exact ⟨a, b, c, ha, hb, hc, hk⟩
    · cases hk
  · cases h

/-! ### The buffer check -/

/-- The buffer's bounds, checked (R150). -/
def BufferOk (s : State) : Prop :=
  argOffset s % 4 = 0 ∧ argLength s % 4 = 0 ∧ argOffset s + argLength s ≤ s.cfg.lmemBytes

theorem withBuffer_ok {k : Nat → Nat → CmdOutcome} {w : Writes} (h : withBuffer s k = .ok w) :
    BufferOk s ∧ k (argOffset s) (argLength s) = .ok w := by
  unfold withBuffer at h
  by_cases h1 : argOffset s % 4 ≠ 0
  · rw [if_pos h1] at h; cases h
  · by_cases h2 : argLength s % 4 ≠ 0
    · rw [if_neg h1, if_pos h2] at h; cases h
    · by_cases h3 : argOffset s + argLength s > s.cfg.lmemBytes
      · rw [if_neg h1, if_neg h2, if_pos h3] at h; cases h
      · rw [if_neg h1, if_neg h2, if_neg h3] at h
        exact ⟨⟨by omega, by omega, by omega⟩, h⟩

theorem withBuffer_pass {k : Nat → Nat → CmdOutcome} (h : BufferOk s) :
    withBuffer s k = k (argOffset s) (argLength s) := by
  obtain ⟨h1, h2, h3⟩ := h
  unfold withBuffer
  rw [if_neg (by omega), if_neg (by omega), if_neg (by omega)]

theorem withBuffer_misaligned {k : Nat → Nat → CmdOutcome} (h : argOffset s % 4 ≠ 0) :
    withBuffer s k = .error .address := by unfold withBuffer; rw [if_pos h]

theorem withBuffer_badLength {k : Nat → Nat → CmdOutcome} (h : argOffset s % 4 = 0)
    (h2 : argLength s % 4 ≠ 0) : withBuffer s k = .error .badLength := by
  unfold withBuffer; rw [if_neg (by omega), if_pos h2]

theorem withBuffer_tooFar {k : Nat → Nat → CmdOutcome} (h : argOffset s % 4 = 0)
    (h2 : argLength s % 4 = 0) (h3 : s.cfg.lmemBytes < argOffset s + argLength s) :
    withBuffer s k = .error .address := by
  unfold withBuffer; rw [if_neg (by omega), if_neg (by omega), if_pos h3]

/-! ### Capacity -/

/-- Fitting in MAXL limbs, by the value and by the limb count (R8, R15). -/
theorem fits_iff (s : State) (v : Nat) : Fits s v ↔ ¬len v > s.cfg.maxl := by
  rw [Fits, ← len_le_iff]; omega

theorem fitting_of_fits {rd : RegNo} {v : Nat} (h : Fits s v) : fitting s rd v = .ok (writeDst rd v) := by
  rw [fitting, if_neg ((fits_iff _ _).1 h)]

theorem fitting_of_not_fits {rd : RegNo} {v : Nat} (h : ¬Fits s v) :
    fitting s rd v = .error .capacity := by
  rw [fitting, if_pos (by have := fits_iff s v; tauto)]

theorem fits_of_le {v u : Nat} (h : v ≤ u) (hu : Fits s u) : Fits s v := Nat.lt_of_le_of_lt h hu

/-- A 32-bit value fits in any register (R8: MAXL ≥ 1). -/
theorem fits_of_word {v : Nat} (hm : 1 ≤ s.cfg.maxl) (h : v < 2 ^ 32) : Fits s v :=
  Nat.lt_of_lt_of_le h (Nat.pow_le_pow_right (by decide) (by omega))

/-- A readable source's value fits where every register's value does (R40, R43). -/
theorem fits_of_operand (hm : 1 ≤ s.cfg.maxl) (hr : ∀ i : RegNo, Fits s (s.breg[i]).value)
    (h : Operand s sa a) : Fits s a := by
  cases sa with
  | reg i => exact h.2 ▸ hr i
  | const k => exact fits_of_word hm (by have := k.isLt; have : a = k.val := h; omega)
  | reserved j => exact h.elim

end Sys2Proof.Machine
end

