-- ==== Sys2Proof/Laws/Exec.lean ====
section
/-! SUPPORT. Every command is one completion step, and what a successful one may write. -/

namespace Sys2Proof.Machine

/-- Where every register's value fits, every value written fits (R40, R214). -/
def WritesFit (s : State) (w : Writes) : Prop :=
  1 ≤ s.cfg.maxl → (∀ r : RegNo, Fits s (s.breg[r]).value) → ∀ p ∈ w.dst, Fits s p.2

theorem writesFit_nil {s : State} {w : Writes} (h : w.dst = []) : WritesFit s w := by
  intro _ _ p hp; rw [h] at hp; cases hp

theorem writesFit_one {s : State} {w : Writes} {rd : RegNo} {v : Nat} (h : w.dst = [(rd, v)])
    (hv : 1 ≤ s.cfg.maxl → (∀ r : RegNo, Fits s (s.breg[r]).value) → Fits s v) : WritesFit s w := by
  intro hm hr p hp
  rw [h, List.mem_singleton] at hp
  subst hp; exact hv hm hr

/-- What the writes of a command that succeeds always are: the destinations of its form, Z, LT/EQ/GT,
RESULT and LMEM only where the table of R44 has them, and LMEM writes inside the buffer. -/
structure AllowedWrites (i : Instr) (s : State) (w : Writes) : Prop where
  dst : w.dst.map Prod.fst = i.dsts
  z : writesZ i = false → w.z = none
  order : ¬writesOrder i → w.order = none
  result : writesResult i = false → w.result = none
  noMem : ¬writesMem i → w.mem = none
  mem : ∀ st, w.mem = some st → st.addr + st.bytes ≤ s.cfg.lmemBytes
  fits : WritesFit s w

theorem quotient_le (a b : Nat) : quotient a b ≤ a := by
  unfold quotient; split
  · exact Nat.zero_le _
  · exact Nat.div_le_self a b

theorem remainder_le (a b : Nat) : remainder a b ≤ a := by
  unfold remainder; split
  · exact Nat.le_refl _
  · exact Nat.mod_le a b

/-- The one inversion lemma of exec: it is always a completion step, of an error, or of writes that are
allowed to the command. -/
theorem exec_cases (i : Instr) (s : State) : ∃ o, exec i s = .next (complete o s) ∧
    ∀ w, o = .ok w → AllowedWrites i s w := by
  cases i with
  | nop =>
    refine ⟨_, rfl, fun w h => ?_⟩
    cases h
    constructor
    case fits => exact writesFit_nil rfl
    all_goals simp [Instr.dsts]
  | movi rd =>
    refine ⟨_, rfl, fun w h => ?_⟩
    cases h
    constructor
    case fits => exact writesFit_one rfl fun hm _ => fits_of_word hm s.a0l.isLt
    all_goals simp [writeDst, Instr.dsts, writesZ]
  | mov rd sa =>
    refine ⟨_, rfl, fun w h => ?_⟩
    obtain ⟨a, ha, h⟩ := withSrc_ok h
    cases h
    constructor
    case fits => exact writesFit_one rfl fun hm hr => fits_of_operand hm hr ha
    all_goals simp [writeDst, Instr.dsts, writesZ]
  | cmp sa sb =>
    refine ⟨_, rfl, fun w h => ?_⟩
    obtain ⟨a, b, ha, hb, h⟩ := withSrcs_ok h
    cases h
    constructor
    case fits => exact writesFit_nil rfl
    all_goals simp [Instr.dsts, writesOrder, writesResult]
  | tstz sa =>
    refine ⟨_, rfl, fun w h => ?_⟩
    obtain ⟨a, ha, h⟩ := withSrc_ok h
    cases h
    constructor
    case fits => exact writesFit_nil rfl
    all_goals simp [Instr.dsts, writesZ, writesResult]
  | len sa =>
    refine ⟨_, rfl, fun w h => ?_⟩
    obtain ⟨a, ha, h⟩ := withSrc_ok h
    cases h
    constructor
    case fits => exact writesFit_nil rfl
    all_goals simp [Instr.dsts, writesZ, writesResult]
  | add rd sa sb =>
    refine ⟨_, rfl, fun w h => ?_⟩
    obtain ⟨a, b, ha, hb, h⟩ := withSrcs_ok h
    unfold fitting at h
    split at h
    · cases h
    · next hf =>
      cases h
      constructor
      case fits => exact writesFit_one rfl fun _ _ => (fits_iff s _).2 hf
      all_goals simp [writeDst, Instr.dsts, writesZ]
  | mul rd sa sb =>
    refine ⟨_, rfl, fun w h => ?_⟩
    obtain ⟨a, b, ha, hb, h⟩ := withSrcs_ok h
    unfold fitting at h
    split at h
    · cases h
    · next hf =>
      cases h
      constructor
      case fits => exact writesFit_one rfl fun _ _ => (fits_iff s _).2 hf
      all_goals simp [writeDst, Instr.dsts, writesZ]
  | sub rd sa sb =>
    refine ⟨_, rfl, fun w h => ?_⟩
    obtain ⟨a, b, ha, hb, h⟩ := withSrcs_ok h
    split at h
    · cases h
    · cases h
      constructor
      case fits =>
        exact writesFit_one rfl fun hm hr => fits_of_le (Nat.sub_le a b) (fits_of_operand hm hr ha)
      all_goals simp [writeDst, Instr.dsts, writesZ]
  | div rd re sa sb =>
    refine ⟨_, rfl, fun w h => ?_⟩
    split at h
    · cases h
    · obtain ⟨a, b, ha, hb, h⟩ := withSrcs_ok h
      cases h
      constructor
      case fits =>
        intro hm hr p hp
        have hq := fits_of_operand hm hr ha
        rcases List.mem_cons.1 hp with rfl | hp
        · exact fits_of_le (quotient_le a b) hq
        · rw [List.mem_singleton.1 hp]; exact fits_of_le (remainder_le a b) hq
      all_goals simp [Instr.dsts, writesZ]
  | quo rd sa sb =>
    refine ⟨_, rfl, fun w h => ?_⟩
    obtain ⟨a, b, ha, hb, h⟩ := withSrcs_ok h
    cases h
    constructor
    case fits =>
      refine writesFit_one rfl fun hm hr => ?_
      exact fits_of_le (quotient_le a b) (fits_of_operand hm hr ha)
    all_goals simp [writeDst, Instr.dsts, writesZ]
  | mod rd sa sb =>
    refine ⟨_, rfl, fun w h => ?_⟩
    obtain ⟨a, b, ha, hb, h⟩ := withSrcs_ok h
    cases h
    constructor
    case fits =>
      refine writesFit_one rfl fun hm hr => ?_
      exact fits_of_le (remainder_le a b) (fits_of_operand hm hr ha)
    all_goals simp [writeDst, Instr.dsts, writesZ]
  | load rd =>
    refine ⟨_, rfl, fun w h => ?_⟩
    obtain ⟨-, h⟩ := withBuffer_ok h
    split at h
    · cases h
    · next hf =>
      cases h
      constructor
      case fits => exact writesFit_one rfl fun _ _ => (fits_iff s _).2 hf
      all_goals simp [writeDst, Instr.dsts, writesZ, writesResult]
  | store sa =>
    refine ⟨_, rfl, fun w h => ?_⟩
    obtain ⟨v, -, h⟩ := withSrc_ok h
    obtain ⟨hb, h⟩ := withBuffer_ok h
    split at h
    · cases h
    · next hk =>
      cases h
      refine ⟨by simp [Instr.dsts], by simp, by simp, by simp [writesResult],
        fun hm => absurd ⟨sa, .inl rfl⟩ hm, fun st hst => ?_, writesFit_nil rfl⟩
      cases hst
      have := hb.2.2
      show argOffset s + byteLen v ≤ _
      omega
  | storep sa =>
    refine ⟨_, rfl, fun w h => ?_⟩
    obtain ⟨v, -, h⟩ := withSrc_ok h
    obtain ⟨hb, h⟩ := withBuffer_ok h
    split at h
    · cases h
    · next hk =>
      cases h
      refine ⟨by simp [Instr.dsts], by simp, by simp, by simp [writesResult],
        fun hm => absurd ⟨sa, .inr rfl⟩ hm, fun st hst => ?_, writesFit_nil rfl⟩
      cases hst
      exact hb.2.2
  | gcd rd sa sb =>
    refine ⟨_, rfl, fun w h => ?_⟩
    obtain ⟨a, b, ha, hb, h⟩ := withSrcs_ok h
    cases h
    constructor
    case fits =>
      refine writesFit_one rfl fun hm hr => ?_
      have fa := fits_of_operand hm hr ha
      have fb := fits_of_operand hm hr hb
      rw [euclid_eq]
      rcases Nat.eq_zero_or_pos a with rfl | hp
      · rwa [Nat.gcd_zero_left]
      · exact fits_of_le (Nat.gcd_le_left b hp) fa
    all_goals simp [writeDst, Instr.dsts, writesZ]
  | modinv rd sa sb =>
    refine ⟨_, rfl, fun w h => ?_⟩
    obtain ⟨a, m, ha, hb, h⟩ := withSrcs_ok h
    split at h
    · cases h
    · next hm2 =>
      split at h
      · cases h
      · next x hx =>
        cases h
        constructor
        case fits =>
          refine writesFit_one rfl fun hm hr => ?_
          obtain ⟨h1, h2⟩ := inverse_spec a m (by omega)
          by_cases hg : Nat.gcd a m = 1
          · obtain ⟨y, hy, hl, -⟩ := h2 hg
            rw [hx] at hy; cases hy
            exact fits_of_le hl.le (fits_of_operand hm hr hb)
          · rw [h1 hg] at hx; cases hx
        all_goals simp [writeDst, Instr.dsts, writesZ]
  | modpow rd sa sb sc =>
    refine ⟨_, rfl, fun w h => ?_⟩
    obtain ⟨b, e, m, -, -, hc, h⟩ := withSrcs3_ok h
    split at h
    · cases h
    · next hm0 =>
      cases h
      constructor
      case fits =>
        refine writesFit_one rfl fun hm hr => ?_
        rw [modpow_eq _ _ _ (by omega)]
        split
        · exact fits_of_word hm (by decide)
        · exact fits_of_le (Nat.mod_lt _ (by omega)).le (fits_of_operand hm hr hc)
      all_goals simp [writeDst, Instr.dsts, writesZ]
  | jacobi rd sa sb =>
    refine ⟨_, rfl, fun w h => ?_⟩
    obtain ⟨a, n, ha, hb, h⟩ := withSrcs_ok h
    split at h
    · cases h
    · next hn =>
      cases h
      constructor
      case fits =>
        refine writesFit_one rfl fun hm hr => ?_
        rw [jacobi_eq _ _ (by omega)]
        have fb := fits_of_operand hm hr hb
        rcases jacobiSym.trichotomy a n with e | e | e <;> rw [e]
        · exact fits_of_word hm (by simp [jacobiDst])
        · exact fits_of_word hm (by simp [jacobiDst])
        · exact fits_of_le (Nat.sub_le n 1) fb
      all_goals simp [Instr.dsts, writesZ, writesResult]

/-- Every command's completion is a next state: no fault and no refusal. -/
theorem exec_next (i : Instr) (s : State) : ∃ o, exec i s = .next (complete o s) :=
  let ⟨o, h, _⟩ := exec_cases i s
  ⟨o, h⟩

/-- The completion step of any command word: an error, or writes allowed to the command it decodes to. -/
theorem completeCurrent_next (s : State) : ∃ o, completeCurrent s = .next (complete o s) ∧
    ∀ w, o = .ok w → ∃ i, decode s.cur = .ok i ∧ AllowedWrites i s w := by
  unfold completeCurrent
  split
  · next i hd =>
    obtain ⟨o, ho, hw⟩ := exec_cases i s
    exact ⟨o, ho, fun w h => ⟨i, hd, hw w h⟩⟩
  · exact ⟨_, rfl, fun w h => by cases h⟩

/-- The error codes are 0x01..0x0A (R201). -/
theorem errorCode_range (c : ErrCode) : 0x01 ≤ (errorCode c).toNat ∧ (errorCode c).toNat ≤ 0x0A := by
  cases c <;> decide

/-- A completed success that writes one register with its Z flag and perhaps RESULT. -/
theorem wroteReg_complete (rd : RegNo) (v : Nat) (r : Option Word) (s : State) :
    WroteReg rd v s (complete (.ok { writeDst rd v with result := r }) s) := by
  refine ⟨succeeded_complete _ _, ?_, fun i hi => ?_, ?_, ⟨rfl, rfl, rfl⟩, fun _ => rfl⟩
  · simp [writeDst, writeRegs]
  · simpa [writeDst, writeRegs] using writeReg_other _ _ _ _ (by simpa using hi)
  · simp [complete_ok_z, writeDst, zeroFlag]

/-- A completed success that writes one register with its Z flag. -/
theorem wroteReg_complete_dst (rd : RegNo) (v : Nat) (s : State) :
    WroteReg rd v s (complete (.ok (writeDst rd v)) s) := wroteReg_complete rd v none s

/-- A completed failure, with the code as a numeral. -/
theorem failedWith_complete_code (c : ErrCode) (k : BitVec 8) (s : State) (h : errorCode c = k) :
    FailedWith k s (complete (.error c) s) := h ▸ failedWith_complete c s

/-- A completed success that writes no register. -/
theorem sameRegs_complete (w : Writes) (s : State) (h : w.dst = []) :
    SameRegsBut [] s (complete (.ok w) s) := by
  intro i _; rw [complete_ok_breg, h]; rfl

end Sys2Proof.Machine
end

