-- ==== Sys2Proof/Laws/Step.lean ====
section
/-! SUPPORT. The inversion lemmas of a host access and of a step: everything each can do, said once. -/

namespace Sys2Proof.Machine

/-! ### Host accesses -/

/-- Where an access at an offset falls. -/
theorem inWindow_iff (s : State) (a : Access) :
    inWindow s a = true ↔ s.cfg.base ≤ a.addr ∧ a.addr < s.cfg.base + 2 ^ 25 := by
  simp [inWindow, windowBytes]

theorem inLmem_iff (s : State) (a : Access) (h : s.cfg.lmemBytes ≤ 2 ^ 24) :
    inLmem s a = true ↔
      s.cfg.base + 0x1000 ≤ a.addr ∧ a.addr < s.cfg.base + 0x1000 + s.cfg.lmemBytes := by
  simp only [inLmem, Bool.and_eq_true, inWindow_iff, decide_eq_true_eq, lmemOffset]
  omega

/-- All that an access that does not wait can do: answer and change nothing; a 32-bit write of a
register; or a write of 1, 2 or 4 bytes inside LMEM. -/
theorem busAccess_cases (a : Access) (s : State) :
    (∃ r, busAccess a s = { s with resp := r }) ∨
    (∃ off d, a = ⟨.write, 4, s.cfg.base + off, d⟩ ∧ off < 0x1000 ∧ off % 4 = 0 ∧
      busAccess a s = answer .ack (regWrite d off s)) ∨
    (∃ k, a.kind = .write ∧ lmemWidth a.bytes = true ∧ k + a.bytes ≤ s.cfg.lmemBytes ∧
      a.addr = s.cfg.base + 0x1000 + k ∧
      busAccess a s = answer .ack { s with lmem := memWrite s.lmem k a.bytes a.data.toNat }) := by
  obtain ⟨kind, bytes, addr, data⟩ := a
  unfold busAccess
  split
  · next hw =>
    have hb := ((inWindow_iff _ _).1 hw).1
    split
    · next hr =>
      unfold regAccess
      split
      · next h4 =>
        cases kind with
        | read => exact .inl ⟨_, rfl⟩
        | fetch => exact .inl ⟨_, rfl⟩
        | write =>
          refine .inr (.inl ⟨addr - s.cfg.base, data, ?_, hr, h4.2, rfl⟩)
          obtain ⟨h4, -⟩ := h4
          simp only at h4 hb ⊢
          rw [h4, Nat.add_sub_cancel' hb]
      · exact .inl ⟨_, rfl⟩
    · next hr =>
      split
      · unfold lmemAccess
        split
        · next hk =>
          cases kind with
          | read => exact .inl ⟨_, rfl⟩
          | fetch => exact .inl ⟨_, rfl⟩
          | write =>
            refine .inr (.inr ⟨_, rfl, hk.1, hk.2.2, ?_, rfl⟩)
            simp only [lmemOffset] at hr hb ⊢
            omega
        · exact .inl ⟨_, rfl⟩
      · exact .inl ⟨_, rfl⟩
  · exact .inl ⟨_, rfl⟩

/-- All that a register write can do. -/
theorem regWrite_cases (d : Word) (off : Nat) (s : State) :
    (off = 0x00C ∧ d.getLsbD 1 = true ∧ regWrite d off s = softReset s) ∨
    (off = 0x00C ∧ d.getLsbD 1 = false ∧ regWrite d off s = { s with ie := d.getLsbD 0 }) ∨
    (off = 0x010 ∧ regWrite d off s = { s with status := s.status.writeOneToClear d }) ∨
    (off = 0x014 ∧ regWrite d off s = acceptCommand d s) ∨
    (off = 0x018 ∧ regWrite d off s = { s with arg0 := d }) ∨
    (off = 0x01C ∧ regWrite d off s = { s with arg1 := d }) ∨
    regWrite d off s = s := by
  unfold regWrite writeCtrl
  split_ifs <;> simp_all

section
variable (d : Word) (off : Nat) (s : State)

@[simp] theorem regWrite_cfg : (regWrite d off s).cfg = s.cfg := by
  rcases regWrite_cases d off s with ⟨-, -, h⟩ | ⟨-, -, h⟩ | ⟨-, h⟩ | ⟨-, h⟩ | ⟨-, h⟩ | ⟨-, h⟩ | h <;>
    rw [h] <;> simp
@[simp] theorem regWrite_lmem : (regWrite d off s).lmem = s.lmem := by
  rcases regWrite_cases d off s with ⟨-, -, h⟩ | ⟨-, -, h⟩ | ⟨-, h⟩ | ⟨-, h⟩ | ⟨-, h⟩ | ⟨-, h⟩ | h <;>
    rw [h] <;> simp
@[simp] theorem regWrite_rst : (regWrite d off s).rst = s.rst := by
  rcases regWrite_cases d off s with ⟨-, -, h⟩ | ⟨-, -, h⟩ | ⟨-, h⟩ | ⟨-, h⟩ | ⟨-, h⟩ | ⟨-, h⟩ | h <;>
    rw [h] <;> simp
@[simp] theorem regWrite_inputs : (regWrite d off s).inputs = s.inputs := by
  rcases regWrite_cases d off s with ⟨-, -, h⟩ | ⟨-, -, h⟩ | ⟨-, h⟩ | ⟨-, h⟩ | ⟨-, h⟩ | ⟨-, h⟩ | h <;>
    rw [h] <;> simp

variable (a : Access)

@[simp] theorem busAccess_cfg : (busAccess a s).cfg = s.cfg := by
  rcases busAccess_cases a s with ⟨r, h⟩ | ⟨off, d, -, -, -, h⟩ | ⟨k, -, -, -, -, h⟩ <;> rw [h] <;> simp
@[simp] theorem busAccess_rst : (busAccess a s).rst = s.rst := by
  rcases busAccess_cases a s with ⟨r, h⟩ | ⟨off, d, -, -, -, h⟩ | ⟨k, -, -, -, -, h⟩ <;> rw [h] <;> simp
@[simp] theorem busAccess_inputs : (busAccess a s).inputs = s.inputs := by
  rcases busAccess_cases a s with ⟨r, h⟩ | ⟨off, d, -, -, -, h⟩ | ⟨k, -, -, -, -, h⟩ <;> rw [h] <;> simp

end

/-- A permitted access to the register block (R69). -/
theorem busAccess_regWrite {s : State} {off : Nat} {d : Word} (h : off < 0x1000) (h4 : off % 4 = 0) :
    busAccess ⟨.write, 4, s.cfg.base + off, d⟩ s = answer .ack (regWrite d off s) := by
  have : inWindow s ⟨.write, 4, s.cfg.base + off, d⟩ = true :=
    (inWindow_iff _ _).2 ⟨by simp, by simp; omega⟩
  simp [busAccess, this, regAccess, h4, lmemOffset, h]

theorem busAccess_regRead {s : State} {off : Nat} {d : Word} (h : off < 0x1000) (h4 : off % 4 = 0) :
    busAccess ⟨.read, 4, s.cfg.base + off, d⟩ s = answer (.data (regRead s off)) s := by
  have : inWindow s ⟨.read, 4, s.cfg.base + off, d⟩ = true :=
    (inWindow_iff _ _).2 ⟨by simp, by simp; omega⟩
  simp [busAccess, this, regAccess, h4, lmemOffset, h]

/-- The STATUS word as a sum of its fields (R56). -/
theorem toWord_toNat (st : Status) : st.toWord.toNat =
    st.busy.toNat + st.done.toNat * 2 + st.err.toNat * 4 + st.ovr.toNat * 8 + st.z.toNat * 16 +
      st.lt.toNat * 32 + st.eq.toNat * 64 + st.gt.toNat * 128 + st.errcode.toNat * 256 := by
  have := st.errcode.isLt
  have hb : ∀ b : Bool, b.toNat ≤ 1 := Bool.toNat_le
  have := hb st.busy; have := hb st.done; have := hb st.err; have := hb st.ovr
  have := hb st.z; have := hb st.lt; have := hb st.eq; have := hb st.gt
  rw [Status.toWord, BitVec.toNat_ofNat]; omega

/-! ### Turns and steps -/

/-- An access to the register block never waits (R71). -/
theorem step_register {s : State} {k : AccessKind} {n off : Nat} {d : Word} {rest : List Input}
    (hr : s.rst = false) (h : off < 0x1000)
    (hi : s.inputs = .bus ⟨k, n, s.cfg.base + off, d⟩ :: rest) :
    step s = .next (busAccess ⟨k, n, s.cfg.base + off, d⟩ { s with inputs := rest }) := by
  have : stalled s ⟨k, n, s.cfg.base + off, d⟩ = false := by simp [stalled, inLmem, lmemOffset, h]
  simp [step, hi, takeInput, hr, this]

/-- A host access that does not wait is made in one step. -/
theorem step_hostTurn {s : State} {a : Access} {rest : List Input} (h : HostTurn s a rest) :
    step s = .next (busAccess a { s with inputs := rest }) := by
  have : stalled s a = false := by
    rcases h.idle with h | h
    · simp [stalled, h]
    · simp only [stalled, inLmem, lmemOffset, Bool.and_eq_false_iff, decide_eq_false_iff_not]
      tauto
  simp [step, h.next, takeInput, h.rst, this]

/-- All that the core's turn can do. -/
theorem coreTurn_cases (s : State) :
    (s.status.busy = true ∧ s.rst = false ∧ ∃ o, coreTurn s = .next (complete o s) ∧
      ∀ w, o = .ok w → ∃ i, decode s.cur = .ok i ∧ AllowedWrites i s w) ∨
    ((s.status.busy = false ∨ s.rst = true) ∧ coreTurn s = .next s) := by
  unfold coreTurn
  split
  · next h =>
    simp only [Bool.and_eq_true, Bool.not_eq_true'] at h
    exact .inl ⟨h.1, h.2, completeCurrent_next s⟩
  · next h =>
    refine .inr ⟨?_, rfl⟩
    simp only [Bool.and_eq_true, Bool.not_eq_true', not_and, Bool.not_eq_false] at h
    cases hb : s.status.busy
    · exact .inl rfl
    · exact .inr (h hb)

/-- The one inversion lemma of step. A next state comes from: a completion; nothing to do; a host access
that does not wait; RST asserted; RST released. -/
theorem step_cases {s t : State} (h : step s = .next t) :
    (∃ o is, s.status.busy = true ∧ s.rst = false ∧ t = complete o { s with inputs := is } ∧
      ∀ w, o = .ok w → ∃ i, decode s.cur = .ok i ∧ AllowedWrites i { s with inputs := is } w) ∨
    (∃ is, t = { s with inputs := is }) ∨
    (∃ a is, s.inputs = .bus a :: is ∧ (s.rst = true → inWindow s a = false) ∧
      stalled s a = false ∧ t = busAccess a { s with inputs := is }) ∨
    (∃ is, s.inputs = .rstAssert :: is ∧ t = { s with inputs := is, rst := true }) ∨
    (∃ draw is, s.inputs = .rstRelease draw :: is ∧ s.rst = true ∧
      t = hardReset draw { s with inputs := is }) := by
  unfold step at h
  split at h
  · next hi =>
    obtain ⟨hb, hr, o, ho, hw⟩ | ⟨-, ho⟩ := coreTurn_cases s
    · rw [ho] at h; cases h; exact .inl ⟨o, s.inputs, hb, hr, rfl, hw⟩
    · rw [ho] at h; cases h; exact .inr (.inl ⟨s.inputs, rfl⟩)
  · next i is hi =>
    cases i with
    | core =>
      simp only [takeInput] at h
      obtain ⟨hb, hr, o, ho, hw⟩ | ⟨-, ho⟩ := coreTurn_cases { s with inputs := is }
      · rw [ho] at h; cases h; exact .inl ⟨o, is, hb, hr, rfl, hw⟩
      · rw [ho] at h; cases h; exact .inr (.inl ⟨is, rfl⟩)
    | bus a =>
      simp only [takeInput] at h
      split at h
      · cases h
      · next hr =>
        have hr' : s.rst = true → inWindow s a = false := fun e => by simpa [e] using hr
        split at h
        · next hst =>
          obtain ⟨o, ho, hw⟩ := completeCurrent_next s
          rw [ho] at h; cases h
          simp only [stalled, inLmem, Bool.and_eq_true] at hst
          refine .inl ⟨o, s.inputs, hst.1, ?_, rfl, hw⟩
          cases e : s.rst
          · rfl
          · exact absurd (hr' e) (by simp [hst.2.1.1])
        · next hst =>
          cases h
          exact .inr (.inr (.inl ⟨a, is, hi, hr', by simpa using hst, rfl⟩))
    | rstAssert =>
      simp only [takeInput] at h
      cases h; exact .inr (.inr (.inr (.inl ⟨is, hi, rfl⟩)))
    | rstRelease draw =>
      simp only [takeInput] at h
      split at h
      · next hr => cases h; exact .inr (.inr (.inr (.inr ⟨draw, is, hi, hr, rfl⟩)))
      · cases h; exact .inr (.inl ⟨is, rfl⟩)

/-- A step stops only where the host reaches into the window while RST is asserted (U4). -/
theorem step_stops {s : State} (h : ∀ t, step s ≠ .next t) :
    step s = .refused .accessDuringReset ∧ s.rst = true ∧
      ∃ a is, s.inputs = .bus a :: is ∧ inWindow s a = true := by
  unfold step at h ⊢
  split at h
  · obtain ⟨-, -, o, ho, -⟩ | ⟨-, ho⟩ := coreTurn_cases s <;> exact absurd ho (h _)
  · next i is hi =>
    cases i with
    | core =>
      obtain ⟨-, -, o, ho, -⟩ | ⟨-, ho⟩ := coreTurn_cases { s with inputs := is } <;> exact absurd ho (h _)
    | bus a =>
      simp only [takeInput] at h ⊢
      split at h
      · next hr =>
        rw [if_pos hr]
        simp only [Bool.and_eq_true] at hr
        exact ⟨rfl, hr.1, a, is, hi, hr.2⟩
      · split at h
        · obtain ⟨o, ho, -⟩ := completeCurrent_next s
          exact absurd ho (h _)
        · exact absurd rfl (h _)
    | rstAssert => exact absurd rfl (h _)
    | rstRelease draw =>
      simp only [takeInput] at h
      split at h <;> exact absurd rfl (h _)

end Sys2Proof.Machine
end

