-- ==== Sys2Proof/Laws/Observe.lean ====
section
/-! SUPPORT. A completion does not look at the values of invalid registers: on two states that differ only
there it has one outcome, and its writes keep the relation (R42, U2). -/

namespace Sys2Proof.Machine

/-- A source reads alike on both. -/
theorem readSrc_congr {s s' : State} (h : SameButInvalid s s') (x : Src) :
    readSrc s' x = readSrc s x := by
  cases x with
  | reg i =>
    simp only [readSrc, (h.2 i).1]
    split
    · next hv => rw [(h.2 i).2 hv]
    · rfl
  | const k => rfl
  | reserved j => rfl

/-- A command has the same outcome on both. -/
theorem exec_congr {s s' : State} (h : SameButInvalid s s') (i : Instr) :
    ∃ o, exec i s = .next (complete o s) ∧ exec i s' = .next (complete o s') := by
  have r := readSrc_congr h
  obtain ⟨h1, -⟩ := h
  have a0 : s'.a0l = s.a0l := by rw [h1]
  have a1 : s'.a1l = s.a1l := by rw [h1]
  have m : s'.lmem = s.lmem := by rw [h1]
  have c : s'.cfg = s.cfg := by rw [h1]
  cases i <;> refine ⟨_, rfl, ?_⟩ <;> unfold exec <;>
    simp only [execNop, execMovi, execMov, execCmp, execTstz, execLen, execAdd, execSub, execMul, execDiv,
      execQuo, execMod, execLoad, execStore, execStorep, execGcd, execModinv, execModpow, execJacobi,
      withSrc, withSrcs, withSrcs3, withBuffer, argOffset, argLength, fitting, r, a0, a1, m, c] <;>
    (try congr 1)

/-- Register files that differ at most in the values of invalid registers. -/
def SameValid (a b : Vector BReg 16) : Prop :=
  ∀ i : RegNo, (b[i]).valid = (a[i]).valid ∧ ((a[i]).valid = true → (b[i]).value = (a[i]).value)

theorem writeRegs_congr (ws : List (RegNo × Nat)) {a b : Vector BReg 16} (h : SameValid a b) :
    SameValid (writeRegs a ws) (writeRegs b ws) := by
  induction ws generalizing a b with
  | nil => exact h
  | cons p ws ih =>
    refine ih fun i => ?_
    by_cases e : i = p.1
    · subst e; rw [writeReg_same, writeReg_same]; simp
    · rw [writeReg_other _ _ _ _ e, writeReg_other _ _ _ _ e]; exact h i

/-- One outcome's writes keep the relation. -/
theorem complete_congr {s s' : State} (h : SameButInvalid s s') (o : CmdOutcome) :
    SameButInvalid (complete o s) (complete o s') := by
  obtain ⟨h1, h2⟩ := h
  generalize hb : s'.breg = b at *
  subst h1
  cases o with
  | error c => exact ⟨rfl, h2⟩
  | ok w => exact ⟨rfl, writeRegs_congr w.dst h2⟩

/-- The completion step decides alike on both. -/
theorem completeCurrent_congr {s s' : State} (h : SameButInvalid s s') :
    ∃ o, completeCurrent s = .next (complete o s) ∧ completeCurrent s' = .next (complete o s') := by
  have hc : s'.cur = s.cur := by rw [h.1]
  unfold completeCurrent
  rw [hc]
  split
  · exact exec_congr h _
  · exact ⟨_, rfl, rfl⟩

/-- The core's turn keeps the relation. -/
theorem coreTurn_congr {s s' : State} (h : SameButInvalid s s') :
    ∃ t t', coreTurn s = .next t ∧ coreTurn s' = .next t' ∧ SameButInvalid t t' := by
  have hb : s'.status.busy = s.status.busy := by rw [h.1]
  have hr : s'.rst = s.rst := by rw [h.1]
  unfold coreTurn
  rw [hb, hr]
  split
  · obtain ⟨o, h1, h2⟩ := completeCurrent_congr h
    exact ⟨_, _, h1, h2, complete_congr h o⟩
  · exact ⟨_, _, rfl, rfl, h⟩

end Sys2Proof.Machine
end

