-- ==== Sys2Proof/Laws/PerInstr.lean ====
section
/-! SUPPORT. Statements made per instruction. -/

namespace Sys2Proof.Laws

/-- The family EncodesInItsRow: every term's word, at every operand value, is a word of its own row of
spec/opcode_table.json by that row's match and mask (R86, R88). -/
def EncodesInItsRow.row : Instr → Nat
  | .nop => 0
  | .movi _ => 1
  | .mov _ _ => 2
  | .cmp _ _ => 3
  | .tstz _ => 4
  | .len _ => 5
  | .add _ _ _ => 6
  | .sub _ _ _ => 7
  | .mul _ _ _ => 8
  | .div _ _ _ _ => 9
  | .quo _ _ _ => 10
  | .mod _ _ _ => 11
  | .load _ => 12
  | .store _ => 13
  | .storep _ => 14
  | .gcd _ _ _ => 15
  | .modinv _ _ _ => 16
  | .modpow _ _ _ _ => 17
  | .jacobi _ _ _ => 18

def EncodesInItsRow.Statement (i : Instr) : Prop :=
  ∃ r, opcodeRows[EncodesInItsRow.row i]? = some r ∧ r.matchesWord (encode i) = true

theorem EncodesInItsRow.nop :
    EncodesInItsRow.Statement .nop :=
  ⟨_, rfl, by decide⟩

theorem EncodesInItsRow.movi (rd : RegNo) :
    EncodesInItsRow.Statement (.movi rd) :=
  ⟨_, rfl, (matchesWord_iff _ 0x01 false true true true true (by decide) rfl rfl).2 (by
    simp [encode, opField_packWord, rd_packWord, re_packWord, sa_packWord, sb_packWord,
      sc_packWord])⟩

theorem EncodesInItsRow.mov (rd : RegNo) (sa : Src) :
    EncodesInItsRow.Statement (.mov rd sa) :=
  ⟨_, rfl, (matchesWord_iff _ 0x02 false true false true true (by decide) rfl rfl).2 (by
    simp [encode, Src.toNat_lt, opField_packWord, rd_packWord, re_packWord, sa_packWord, sb_packWord,
      sc_packWord])⟩

theorem EncodesInItsRow.cmp (sa sb : Src) :
    EncodesInItsRow.Statement (.cmp sa sb) :=
  ⟨_, rfl, (matchesWord_iff _ 0x03 true true false false true (by decide) rfl rfl).2 (by
    simp [encode, Src.toNat_lt, opField_packWord, rd_packWord, re_packWord, sa_packWord, sb_packWord,
      sc_packWord])⟩

theorem EncodesInItsRow.tstz (sa : Src) :
    EncodesInItsRow.Statement (.tstz sa) :=
  ⟨_, rfl, (matchesWord_iff _ 0x04 true true false true true (by decide) rfl rfl).2 (by
    simp [encode, Src.toNat_lt, opField_packWord, rd_packWord, re_packWord, sa_packWord, sb_packWord,
      sc_packWord])⟩

theorem EncodesInItsRow.len (sa : Src) :
    EncodesInItsRow.Statement (.len sa) :=
  ⟨_, rfl, (matchesWord_iff _ 0x05 true true false true true (by decide) rfl rfl).2 (by
    simp [encode, Src.toNat_lt, opField_packWord, rd_packWord, re_packWord, sa_packWord, sb_packWord,
      sc_packWord])⟩

theorem EncodesInItsRow.add (rd : RegNo) (sa sb : Src) :
    EncodesInItsRow.Statement (.add rd sa sb) :=
  ⟨_, rfl, (matchesWord_iff _ 0x08 false true false false true (by decide) rfl rfl).2 (by
    simp [encode, Src.toNat_lt, opField_packWord, rd_packWord, re_packWord, sa_packWord, sb_packWord,
      sc_packWord])⟩

theorem EncodesInItsRow.sub (rd : RegNo) (sa sb : Src) :
    EncodesInItsRow.Statement (.sub rd sa sb) :=
  ⟨_, rfl, (matchesWord_iff _ 0x09 false true false false true (by decide) rfl rfl).2 (by
    simp [encode, Src.toNat_lt, opField_packWord, rd_packWord, re_packWord, sa_packWord, sb_packWord,
      sc_packWord])⟩

theorem EncodesInItsRow.mul (rd : RegNo) (sa sb : Src) :
    EncodesInItsRow.Statement (.mul rd sa sb) :=
  ⟨_, rfl, (matchesWord_iff _ 0x0A false true false false true (by decide) rfl rfl).2 (by
    simp [encode, Src.toNat_lt, opField_packWord, rd_packWord, re_packWord, sa_packWord, sb_packWord,
      sc_packWord])⟩

theorem EncodesInItsRow.div (rd re : RegNo) (sa sb : Src) :
    EncodesInItsRow.Statement (.div rd re sa sb) :=
  ⟨_, rfl, (matchesWord_iff _ 0x0C false false false false true (by decide) rfl rfl).2 (by
    simp [encode, Src.toNat_lt, opField_packWord, rd_packWord, re_packWord, sa_packWord, sb_packWord,
      sc_packWord])⟩

theorem EncodesInItsRow.quo (rd : RegNo) (sa sb : Src) :
    EncodesInItsRow.Statement (.quo rd sa sb) :=
  ⟨_, rfl, (matchesWord_iff _ 0x0D false true false false true (by decide) rfl rfl).2 (by
    simp [encode, Src.toNat_lt, opField_packWord, rd_packWord, re_packWord, sa_packWord, sb_packWord,
      sc_packWord])⟩

theorem EncodesInItsRow.mod (rd : RegNo) (sa sb : Src) :
    EncodesInItsRow.Statement (.mod rd sa sb) :=
  ⟨_, rfl, (matchesWord_iff _ 0x0E false true false false true (by decide) rfl rfl).2 (by
    simp [encode, Src.toNat_lt, opField_packWord, rd_packWord, re_packWord, sa_packWord, sb_packWord,
      sc_packWord])⟩

theorem EncodesInItsRow.load (rd : RegNo) :
    EncodesInItsRow.Statement (.load rd) :=
  ⟨_, rfl, (matchesWord_iff _ 0x10 false true true true true (by decide) rfl rfl).2 (by
    simp [encode, opField_packWord, rd_packWord, re_packWord, sa_packWord, sb_packWord,
      sc_packWord])⟩

theorem EncodesInItsRow.store (sa : Src) :
    EncodesInItsRow.Statement (.store sa) :=
  ⟨_, rfl, (matchesWord_iff _ 0x11 true true false true true (by decide) rfl rfl).2 (by
    simp [encode, Src.toNat_lt, opField_packWord, rd_packWord, re_packWord, sa_packWord, sb_packWord,
      sc_packWord])⟩

theorem EncodesInItsRow.storep (sa : Src) :
    EncodesInItsRow.Statement (.storep sa) :=
  ⟨_, rfl, (matchesWord_iff _ 0x12 true true false true true (by decide) rfl rfl).2 (by
    simp [encode, Src.toNat_lt, opField_packWord, rd_packWord, re_packWord, sa_packWord, sb_packWord,
      sc_packWord])⟩

theorem EncodesInItsRow.gcd (rd : RegNo) (sa sb : Src) :
    EncodesInItsRow.Statement (.gcd rd sa sb) :=
  ⟨_, rfl, (matchesWord_iff _ 0x18 false true false false true (by decide) rfl rfl).2 (by
    simp [encode, Src.toNat_lt, opField_packWord, rd_packWord, re_packWord, sa_packWord, sb_packWord,
      sc_packWord])⟩

theorem EncodesInItsRow.modinv (rd : RegNo) (sa sb : Src) :
    EncodesInItsRow.Statement (.modinv rd sa sb) :=
  ⟨_, rfl, (matchesWord_iff _ 0x19 false true false false true (by decide) rfl rfl).2 (by
    simp [encode, Src.toNat_lt, opField_packWord, rd_packWord, re_packWord, sa_packWord, sb_packWord,
      sc_packWord])⟩

theorem EncodesInItsRow.modpow (rd : RegNo) (sa sb sc : Src) :
    EncodesInItsRow.Statement (.modpow rd sa sb sc) :=
  ⟨_, rfl, (matchesWord_iff _ 0x1A false true false false false (by decide) rfl rfl).2 (by
    simp [encode, Src.toNat_lt, opField_packWord, rd_packWord, re_packWord, sa_packWord, sb_packWord,
      sc_packWord])⟩

theorem EncodesInItsRow.jacobi (rd : RegNo) (sa sb : Src) :
    EncodesInItsRow.Statement (.jacobi rd sa sb) :=
  ⟨_, rfl, (matchesWord_iff _ 0x1B false true false false true (by decide) rfl rfl).2 (by
    simp [encode, Src.toNat_lt, opField_packWord, rd_packWord, re_packWord, sa_packWord, sb_packWord,
      sc_packWord])⟩

end Sys2Proof.Laws
end

