-- ==== Sys2Proof/Tests/Slice0.lean ====
section
/-! SUPPORT. The model's own tests. Expected values are those of spec/95_test_vectors.md (the section is
named at each group) or the encodings of spec/30_encoding.md written out; then one witness or more for
every statement that has hypotheses. -/

namespace Sys2Proof.Tests
open Sys2Proof Sys2Proof.Machine

-- One theorem after the other: many kernel evaluations at once need a thread each.
set_option Elab.async false

/-! ### Helpers -/

/-- B0, B1, B2 valid with a, b, c; MAXL = 4 as part 2 of spec/95_test_vectors.md has it. -/
def st (a b c : Nat) : State :=
  { State.reset with
    cfg := { Config.reference with maxl := 4 }
    breg := ((State.reset.breg.set 0 ⟨a, true⟩).set 1 ⟨b, true⟩).set 2 ⟨c, true⟩ }

/-- `st` with ARG0, ARG1 and the bytes of LMEM from `addr` on. -/
def stArgs (a : Nat) (arg0 arg1 : Word) (addr : Nat) (bytes : List Nat) : State :=
  { st a 0 7 with
    arg0 := arg0, arg1 := arg1, a0l := arg0, a1l := arg1
    lmem := drawMemory 4096 (bytes.zipIdx.map fun (v, i) => (addr + i, BitVec.ofNat 8 v)) }

/-- The state after one step of the command word w, or nothing where the step stops. -/
def after (s : State) (w : Nat) : Option State :=
  match step (s.withFetchWord 32 w) with
  | .next t => some t
  | .fault _ => none
  | .refused _ => none

/-- The state after one step. -/
def stepped (s : State) : Option State :=
  match step s with
  | .next t => some t
  | .fault _ => none
  | .refused _ => none

/-- The STATUS word and B2. -/
def statusB2 (t : State) : Nat × BReg := (t.status.toWord.toNat, t.breg[(2 : Fin 16)])

/-- The STATUS word, B2 and RESULT. -/
def statusB2R (t : State) : Nat × BReg × Nat :=
  (t.status.toWord.toNat, t.breg[(2 : Fin 16)], t.result.toNat)

/-- The STATUS word and RESULT. -/
def statusR (t : State) : Nat × Nat := (t.status.toWord.toNat, t.result.toNat)

/-- n bytes of LMEM from `addr` on. -/
def bytesAt (t : State) (addr n : Nat) : List Nat :=
  (List.range n).map fun i => (t.lmem.read (addr + i)).toNat

/-- One 32-bit host write of d at offset off, in s. -/
def hostWrite (off : Nat) (d : Word) (s : State) : State :=
  { s with inputs := [.bus ⟨.write, 4, s.cfg.base + off, d⟩] }

/-- One 32-bit host read at offset off, in s. -/
def hostRead (off : Nat) (s : State) : State :=
  { s with inputs := [.bus ⟨.read, 4, s.cfg.base + off, 0⟩] }

/-- `s` with the word w in flight and nothing else pending. -/
def inFlight (w : Word) (s : State) : State :=
  { s with cur := w, status := { s.status with busy := true, done := false } }

/-! ### WellFormed refuses what it must (R84, R141) -/

theorem test_wf_reserved_sa : (Instr.mov 1 (.reserved 0)).wf = false := by decide
theorem test_wf_reserved_sb : (Instr.add 2 (.reg 0) (.reserved 30)).wf = false := by decide
theorem test_wf_reserved_sc : (Instr.modpow 2 (.reg 0) (.reg 1) (.reserved 0)).wf = false := by decide
theorem test_wf_div_rd_eq_re : (Instr.div 2 2 (.reg 0) (.reg 1)).wf = false := by decide
theorem test_wf_passes : (Instr.div 4 5 (.reg 0) (.const 16)).wf = true := by decide

/-! ### Decoding: op, rd, re, sa, sb, sc written out bit by bit from R81, R84, R88 -/

theorem test_decode_nop : decode (0b000000#6 ++ 0b0000#4 ++ 0b0000#4 ++ 0b000000#6 ++ 0b000000#6 ++
    0b000000#6) = .ok .nop := by decide
theorem test_decode_movi : decode (0b000001#6 ++ 0b0010#4 ++ 0b0000#4 ++ 0b000000#6 ++ 0b000000#6 ++
    0b000000#6) = .ok (.movi 2) := by decide
theorem test_decode_mov : decode (0b000010#6 ++ 0b0001#4 ++ 0b0000#4 ++ 0b100000#6 ++ 0b000000#6 ++
    0b000000#6) = .ok (.mov 1 (.const 16)) := by decide
theorem test_decode_cmp : decode (0b000011#6 ++ 0b0000#4 ++ 0b0000#4 ++ 0b001111#6 ++ 0b010001#6 ++
    0b000000#6) = .ok (.cmp (.reg 15) (.const 1)) := by decide
theorem test_decode_tstz : decode (0b000100#6 ++ 0b0000#4 ++ 0b0000#4 ++ 0b000111#6 ++ 0b000000#6 ++
    0b000000#6) = .ok (.tstz (.reg 7)) := by decide
theorem test_decode_len : decode (0b000101#6 ++ 0b0000#4 ++ 0b0000#4 ++ 0b010000#6 ++ 0b000000#6 ++
    0b000000#6) = .ok (.len (.const 0)) := by decide
theorem test_decode_add : decode (0b001000#6 ++ 0b0010#4 ++ 0b0000#4 ++ 0b000000#6 ++ 0b000001#6 ++
    0b000000#6) = .ok (.add 2 (.reg 0) (.reg 1)) := by decide
theorem test_decode_sub : decode (0b001001#6 ++ 0b1111#4 ++ 0b0000#4 ++ 0b001000#6 ++ 0b011111#6 ++
    0b000000#6) = .ok (.sub 15 (.reg 8) (.const 15)) := by decide
theorem test_decode_mul : decode (0b001010#6 ++ 0b0011#4 ++ 0b0000#4 ++ 0b000100#6 ++ 0b000101#6 ++
    0b000000#6) = .ok (.mul 3 (.reg 4) (.reg 5)) := by decide
theorem test_decode_div : decode (0b001100#6 ++ 0b0100#4 ++ 0b0101#4 ++ 0b000000#6 ++ 0b000001#6 ++
    0b000000#6) = .ok (.div 4 5 (.reg 0) (.reg 1)) := by decide
theorem test_decode_quo : decode (0b001101#6 ++ 0b1000#4 ++ 0b0000#4 ++ 0b001001#6 ++ 0b010010#6 ++
    0b000000#6) = .ok (.quo 8 (.reg 9) (.const 2)) := by decide
theorem test_decode_mod : decode (0b001110#6 ++ 0b0111#4 ++ 0b0000#4 ++ 0b000110#6 ++ 0b001110#6 ++
    0b000000#6) = .ok (.mod 7 (.reg 6) (.reg 14)) := by decide
theorem test_decode_load : decode (0b010000#6 ++ 0b0010#4 ++ 0b0000#4 ++ 0b000000#6 ++ 0b000000#6 ++
    0b000000#6) = .ok (.load 2) := by decide
theorem test_decode_store : decode (0b010001#6 ++ 0b0000#4 ++ 0b0000#4 ++ 0b000011#6 ++ 0b000000#6 ++
    0b000000#6) = .ok (.store (.reg 3)) := by decide
theorem test_decode_storep : decode (0b010010#6 ++ 0b0000#4 ++ 0b0000#4 ++ 0b011000#6 ++ 0b000000#6 ++
    0b000000#6) = .ok (.storep (.const 8)) := by decide
theorem test_decode_gcd : decode (0b011000#6 ++ 0b0001#4 ++ 0b0000#4 ++ 0b001010#6 ++ 0b001011#6 ++
    0b000000#6) = .ok (.gcd 1 (.reg 10) (.reg 11)) := by decide
theorem test_decode_modinv : decode (0b011001#6 ++ 0b1100#4 ++ 0b0000#4 ++ 0b001101#6 ++ 0b000010#6 ++
    0b000000#6) = .ok (.modinv 12 (.reg 13) (.reg 2)) := by decide
theorem test_decode_modpow : decode (0b011010#6 ++ 0b0001#4 ++ 0b0000#4 ++ 0b000000#6 ++ 0b000010#6 ++
    0b000011#6) = .ok (.modpow 1 (.reg 0) (.reg 2) (.reg 3)) := by decide
theorem test_decode_jacobi : decode (0b011011#6 ++ 0b0101#4 ++ 0b0000#4 ++ 0b010011#6 ++ 0b000110#6 ++
    0b000000#6) = .ok (.jacobi 5 (.const 3) (.reg 6)) := by decide

/-- The ILLEGAL_ENCODING rows of part 2.8. -/
theorem test_decode_illegal_encoding :
    [0x00000001#32, 0x18000000#32, 0xFC000000#32, 0x1C021000#32, 0x04000001#32, 0x20840040#32].all
      (fun w => decode w == .error .illegalEncoding) = true := by decide

/-- The ILLEGAL_OPERAND rows of part 2.8. -/
theorem test_decode_illegal_operand :
    [0x20800840#32, 0x2083F040#32, 0x68800061#32, 0x30880040#32].all
      (fun w => decode w == .error .illegalOperand) = true := by decide

/-- The host's question: NOP's row, and a reserved opcode (R88). -/
theorem test_decodeTableWord :
    decodeTableWord 32 0x40800000 = some (.load 2) ∧ decodeTableWord 32 0x18000000 = none := by decide

/-! ### Reset (R230) and memory form -/

theorem test_reset_memory_wf : State.reset.lmem.wf = true := by decide
theorem test_reset_is_hardReset : hardReset [] State.reset = State.reset := by decide +kernel
theorem test_write_zero_unlists : (Memory.write [(4, 0xAA#8)] 4 0).wf = true ∧
    Memory.write [(4, 0xAA#8)] 4 0 = [] := by decide

/-! ### Part 2.4: construction and comparison -/

/-- NOP clears a previous error and leaves Z. -/
theorem test_nop : (after { st 0 0 7 with status := ⟨false, true, true, false, true, false, false, false, 7⟩ }
    0x00000000).map statusB2 = some (0x12, ⟨7, true⟩) := by decide +kernel

theorem test_movi_largest : (after { st 0 0 0 with arg0 := 0xFFFFFFFF } 0x04800000).map statusB2
    = some (0x02, ⟨0xFFFFFFFF, true⟩) := by decide +kernel
theorem test_movi_zero : (after (st 0 0 7) 0x04800000).map statusB2 = some (0x12, ⟨0, true⟩) := by
  decide +kernel

theorem test_mov_constant : (after (st 0 0 7) 0x08810000).map statusB2 = some (0x12, ⟨0, true⟩) := by
  decide +kernel
theorem test_mov_uninit : (after State.reset 0x08800000).map statusB2 = some (0x306, ⟨0, false⟩) := by
  decide +kernel

theorem test_cmp_greater : (after (st 0x100000000 0xFFFFFFFF 0) 0x0C000040).map statusR
    = some (0x82, 1) := by decide +kernel
theorem test_cmp_less : (after (st 0 1 0) 0x0C000040).map statusR = some (0x22, 0xFFFFFFFF) := by
  decide +kernel

theorem test_tstz_zero : (after (st 0 0 0) 0x10000000).map statusR = some (0x12, 1) := by decide +kernel
theorem test_tstz_nonzero : (after (st 0x10000000000000000 0 0) 0x10000000).map statusR
    = some (0x02, 0) := by decide +kernel

theorem test_len_zero : (after (st 0 0 0) 0x14000000).map statusR = some (0x12, 0) := by decide +kernel
theorem test_len_two : (after (st 0x100000000 0 0) 0x14000000).map statusR = some (0x02, 2) := by
  decide +kernel

/-! ### Parts 2.1 to 2.3: adder, multiplier, divider -/

theorem test_add_carry : (after (st 0xFFFFFFFFFFFFFFFF 1 7) 0x20800040).map statusB2
    = some (0x02, ⟨0x10000000000000000, true⟩) := by decide +kernel
theorem test_add_capacity : (after (st 0xFFFFFFFFFFFFFFFFFFFFFFFFFFFFFFFF 1 7) 0x20800040).map statusB2
    = some (0x906, ⟨7, true⟩) := by decide +kernel

theorem test_sub_borrow : (after (st 0x10000000000000000 1 7) 0x24800040).map statusB2
    = some (0x02, ⟨0xFFFFFFFFFFFFFFFF, true⟩) := by decide +kernel
theorem test_sub_negative : (after (st 0 1 7) 0x24800040).map statusB2 = some (0x706, ⟨7, true⟩) := by
  decide +kernel

theorem test_mul_square : (after (st 0xFFFFFFFF 0xFFFFFFFF 7) 0x28800040).map statusB2
    = some (0x02, ⟨0xFFFFFFFE00000001, true⟩) := by decide +kernel
theorem test_mul_capacity : (after (st 0x1000000000000000000000000 0x100000000 7) 0x28800040).map statusB2
    = some (0x906, ⟨7, true⟩) := by decide +kernel

theorem test_div_wide : (after (st 0x0123456789ABCDEF0123456789ABCDEF 0xFEDCBA9876543211 7)
    0x308C0040).map (fun t => (statusB2 t, t.breg[(3 : Fin 16)]))
    = some ((0x02, ⟨0x124924924924923, true⟩), ⟨0x7E34FCE968301C9C, true⟩) := by decide +kernel
theorem test_div_by_zero : (after (st 0x64 0 7) 0x308C0040).map
    (fun t => (statusB2 t, t.breg[(3 : Fin 16)])) = some ((0x02, ⟨0, true⟩), ⟨0x64, true⟩) := by
  decide +kernel

theorem test_quo : (after (st 0x154 2 7) 0x34800040).map statusB2 = some (0x02, ⟨0xAA, true⟩) := by
  decide +kernel
theorem test_quo_by_zero : (after (st 0x63 0 7) 0x34800040).map statusB2 = some (0x12, ⟨0, true⟩) := by
  decide +kernel

theorem test_mod : (after (st 0x10000000000000000 0xFFFFFFFF 7) 0x38800040).map statusB2
    = some (0x02, ⟨1, true⟩) := by decide +kernel
theorem test_mod_by_zero : (after (st 0x63 0 7) 0x38800040).map statusB2 = some (0x02, ⟨0x63, true⟩) := by
  decide +kernel

/-- R140's engine on a row of part 2.3. -/
theorem test_divmod_engine : divmod 0x7FFFFFFF80000000FFFFFFFE 0x8000000000000001
    = (0xFFFFFFFE, 0x8000000000000000) := by decide +kernel

/-! ### Part 2.5: serialisation -/

/-- S4. -/
theorem test_load : (after (stArgs 0 0 8 0 [0x78, 0x56, 0x34, 0x12, 0xF0, 0xDE, 0xBC, 0x9A])
    0x40800000).map statusB2R = some (0x02, ⟨0x9ABCDEF012345678, true⟩, 8) := by decide +kernel
/-- S8. -/
theorem test_load_no_wrap : (after (stArgs 0 0xFFFFFFFC 8 0 []) 0x40800000).map statusB2R
    = some (0x406, ⟨7, true⟩, 0) := by decide +kernel

/-- S14. -/
theorem test_store : (after (stArgs 0x1122334455 8 8 0 []) 0x44000000).map
    (fun t => (statusR t, bytesAt t 8 8))
    = some ((0x02, 8), [0x55, 0x44, 0x33, 0x22, 0x11, 0, 0, 0]) := by decide +kernel
/-- S15. -/
theorem test_store_too_small : (after (stArgs 0x100000000 0 4 0 [0xAA, 0xAA, 0xAA, 0xAA])
    0x44000000).map (fun t => (statusR t, bytesAt t 0 4))
    = some ((0xA06, 0), [0xAA, 0xAA, 0xAA, 0xAA]) := by decide +kernel

/-- S20. -/
theorem test_storep : (after (stArgs 0x1122334455 0 12 0 (List.replicate 12 0xAA)) 0x48000000).map
    (fun t => (statusR t, bytesAt t 0 13))
    = some ((0x02, 8), [0x55, 0x44, 0x33, 0x22, 0x11, 0, 0, 0, 0, 0, 0, 0, 0]) := by decide +kernel
/-- S19. -/
theorem test_storep_zero : (after (stArgs 0 0 8 0 (List.replicate 8 0xAA)) 0x48000000).map
    (fun t => (statusR t, bytesAt t 0 8)) = some ((0x02, 0), List.replicate 8 0) := by decide +kernel

/-! ### Parts 2.6 and 2.7: GCD, MODINV, MODPOW, JACOBI -/

theorem test_gcd : (after (st 0x42F 0x1CE 7) 0x60800040).map statusB2 = some (0x02, ⟨0x15, true⟩) := by
  decide +kernel
theorem test_gcd_zero : (after (st 5 0 7) 0x60800040).map statusB2 = some (0x02, ⟨5, true⟩) := by
  decide +kernel

theorem test_modinv : (after (st 0x11 0xC30 7) 0x64800040).map statusB2 = some (0x02, ⟨0xAC1, true⟩) := by
  decide +kernel
theorem test_modinv_not_invertible : (after (st 6 9 7) 0x64800040).map statusB2
    = some (0x806, ⟨7, true⟩) := by decide +kernel

theorem test_modpow : (after (st 0x41 0x11 0xCA1) 0x68800042).map statusB2
    = some (0x02, ⟨0xAE6, true⟩) := by decide +kernel
theorem test_modpow_zero_exponent : (after (st 5 0 1) 0x68800042).map statusB2
    = some (0x02, ⟨1, true⟩) := by decide +kernel

theorem test_jacobi : (after (st 0x3E9 0x26B3 7) 0x6C800040).map statusB2R
    = some (0x02, ⟨0x26B2, true⟩, 0xFFFFFFFF) := by decide +kernel
theorem test_jacobi_even : (after (st 5 8 7) 0x6C800040).map statusB2R = some (0x606, ⟨7, true⟩, 0) := by
  decide +kernel

/-! ### Part 2.9: the host interface -/

/-- H1. -/
theorem test_host_params : [0x000, 0x004, 0x008].map
    (fun off => (stepped (hostRead off State.reset)).bind (·.resp))
    = [some (.data 0x52534131), some (.data 0x11100080), some (.data 0x00001000)] := by decide +kernel

/-- H7. -/
theorem test_host_status_w1c : (stepped (hostWrite 0x010 0xFFFFFFFF { State.reset with
    status := ⟨false, true, true, true, false, false, true, false, 7⟩ })).map (·.status.toWord)
    = some 0x744 := by decide +kernel

/-- H6. -/
theorem test_host_overrun : (stepped (hostWrite 0x014 0x04000000 (inFlight 0x20800040 (st 1 2 3)))).map
    (fun t => (t.status.ovr, t.cur, t.status.busy)) = some (true, 0x20800040, true) := by decide +kernel

/-- H9. -/
theorem test_host_soft_reset : (stepped (hostWrite 0x00C 3 (stArgs 5 1 2 0 [0xAA]))).map
    (fun t => (t.ie, t.status.toWord, t.arg0, t.breg[(0 : Fin 16)].valid, t.lmem.read 0))
    = some (false, 0, 0, false, 0xAA) := by decide +kernel

/-- H12. -/
theorem test_host_lmem_lanes : [(4, 0), (2, 2), (1, 3)].map (fun (n, k) =>
    (stepped { stArgs 0 0 0 0 [0x78, 0x56, 0x34, 0x12] with
      inputs := [.bus ⟨.read, n, 0x1000 + k, 0⟩] }).bind (·.resp))
    = [some (.data 0x12345678), some (.data 0x1234), some (.data 0x12)] := by decide +kernel

/-- H11. -/
theorem test_host_bus_errors : [(1, 0x010), (2, 0x1001), (4, 0x1002), (4, 0x2000)].map
    (fun (n, a) => (stepped { State.reset with inputs := [.bus ⟨.read, n, a, 0⟩] }).bind (·.resp))
    = List.replicate 4 (some .busError) := by decide +kernel

/-- H15: the LMEM access waits and is still pending after the completion. -/
theorem test_host_lmem_waits : (stepped { inFlight 0x44000000 (stArgs 0x2A 0 4 0 []) with
    inputs := [.bus ⟨.read, 4, 0x1000, 0⟩] }).map (fun t => (t.status.busy, t.inputs.length, t.lmem.read 0))
    = some (false, 1, 0x2A) := by decide +kernel

/-- H14. -/
theorem test_cmdcnt_wraps : (after { State.reset with cmdcnt := 0xFFFFFFFF } 0x00000000).map (·.cmdcnt)
    = some 0 := by decide +kernel

/-- U4: the window is not to be accessed while RST is asserted; elsewhere the core takes no part. -/
theorem test_access_during_reset : stepped { hostRead 0x000 State.reset with rst := true } = none := by
  decide +kernel

/-! ### Witnesses: for every statement with hypotheses, states and operands that meet them all, clause by
clause, at boundary values -/

/-- B0 = v, ARG0 and ARG1 latched, a word in flight. -/
def stFly (v : Nat) (arg0 arg1 : Word) (w : Word) : State := inFlight w (stArgs v arg0 arg1 0 [])

theorem st_operand_reg : Operand (st 5 3 7) (.reg 0) 5 ∧ Operand (st 5 3 7) (.reg 1) 3 ∧
    Operand (st 5 3 7) (.reg 2) 7 := by
  refine ⟨⟨?_, ?_⟩, ⟨?_, ?_⟩, ⟨?_, ?_⟩⟩ <;> decide +kernel

theorem st_operand_const : Operand (st 5 3 7) (.const 0) 0 ∧ Operand (st 5 3 7) (.const 16) 16 :=
  ⟨rfl, rfl⟩

theorem witness_DecodeAndEncodeAgree : (Instr.div 15 0 (.const 16) (.reg 15)).wf = true ∧
    decode 0x68400083 = .ok (.modpow 1 (.reg 0) (.reg 2) (.reg 3)) := by decide

theorem witness_DecodeErrorsFollowOpcodeTable :
    (∀ r ∈ opcodeRows, r.matchesWord 0x18000000 = false) ∧
    (∃ r ∈ opcodeRows, r.matchesWord 0x20800840 = true ∧ ∃ lo ∈ r.srcs, 0x20 < field 0x20800840 lo 6) ∧
    (∃ r ∈ opcodeRows, r.matchesWord 0x30880040 = true ∧ r.hasRe = true ∧
      field 0x30880040 22 4 = field 0x30880040 18 4) := by decide +kernel

/-- `stFly` holding 5, with the inputs `is` to come. -/
def stFlyMeets (is : List Input) (w : Word) : State := { stFly 5 0 0 w with inputs := is }

/-- Accesses to the first and last byte of LMEM: a permitted read, a permitted write, a fetch, a misaligned
read. -/
def lmemEdgeAccesses : List Access :=
  [⟨.read, 4, 0x1000, 0⟩, ⟨.write, 1, 0x1FFF, 7⟩, ⟨.fetch, 4, 0x1000, 0⟩, ⟨.read, 2, 0x1FFF, 0⟩]

/-- STORE in flight, meeting in turn no input, the core's turn, and each of the accesses above. -/
theorem witness_StepRunsDecodedCommand :
    ([] :: [.core] :: lmemEdgeAccesses.map (fun a => [.bus a])).all (fun is =>
      let s := stFlyMeets is 0x44000000
      decide (s.status.busy = true ∧ s.rst = false ∧ decode s.cur = .ok (.store (.reg 0)) ∧
        s.inputs = is)) = true ∧
    lmemEdgeAccesses.all (fun a =>
      let s := stFlyMeets [.bus a] 0x44000000
      decide (s.inputs = .bus a :: [] ∧ s.cfg.base + 0x1000 ≤ a.addr ∧
        a.addr < s.cfg.base + 0x1000 + s.cfg.lmemBytes ∧ s.cfg.lmemBytes ≤ 2 ^ 24)) = true ∧
    decode (BitVec.ofNat 32 (0x20800040 % 2 ^ 32)) = .ok (.add 2 (.reg 0) (.reg 1)) := by decide +kernel

theorem witness_UndecodableWordFails :
    [0x18000000, 0x20800840].all (fun w =>
      let s := stFlyMeets [.core] w
      decide (s.status.busy = true ∧ s.rst = false ∧ s.inputs = .core :: [])) = true ∧
    decode (stFlyMeets [.core] 0x18000000).cur = .error .illegalEncoding ∧
    decode (stFlyMeets [.core] 0x20800840).cur = .error .illegalOperand := by decide +kernel

theorem witness_MovCopiesItsSource : Operand (st 5 3 7) (.reg 0) 5 ∧ Operand (st 5 3 7) (.const 16) 16 :=
  ⟨st_operand_reg.1, rfl⟩

/-- Less, equal, greater. -/
theorem witness_CmpOrdersItsSources :
    (Operand (st 5 3 7) (.const 0) 0 ∧ Operand (st 5 3 7) (.reg 1) 3) ∧
    (Operand (st 5 3 7) (.reg 1) 3 ∧ Operand (st 5 3 7) (.const 3) 3) ∧
    (Operand (st 5 3 7) (.reg 0) 5 ∧ Operand (st 5 3 7) (.reg 1) 3) :=
  ⟨⟨rfl, st_operand_reg.2.1⟩, ⟨st_operand_reg.2.1, rfl⟩, st_operand_reg.1, st_operand_reg.2.1⟩

theorem witness_TstzTestsForZero : Operand (st 5 3 7) (.const 0) 0 ∧ Operand (st 5 3 7) (.reg 0) 5 :=
  ⟨rfl, st_operand_reg.1⟩

theorem witness_LenCountsLimbs : (Operand (st 5 3 7) (.const 0) 0 ∧ LimbCount 0 0) ∧
    (Operand (st 5 3 7) (.reg 0) 5 ∧ LimbCount 5 1) ∧
    (Operand (st 0x100000000 3 7) (.reg 0) 0x100000000 ∧ LimbCount 0x100000000 2) := by
  refine ⟨⟨rfl, ⟨?_, ?_⟩⟩, ⟨st_operand_reg.1, ⟨?_, ?_⟩⟩, ⟨⟨?_, ?_⟩, ⟨?_, ?_⟩⟩⟩ <;> decide +kernel

/-- The largest value of 4 limbs. -/
def maxVal : Nat := 2 ^ 128 - 1

theorem operand_max : Operand (st maxVal 1 7) (.reg 0) maxVal ∧ Operand (st maxVal 1 7) (.reg 1) 1 := by
  refine ⟨⟨?_, ?_⟩, ⟨?_, ?_⟩⟩ <;> decide +kernel

/-- The largest sum that fits, and the smallest that does not. -/
theorem witness_AddIsExactOrRefused :
    (Operand (st maxVal 1 7) (.reg 0) maxVal ∧ Operand (st maxVal 1 7) (.const 0) 0 ∧
      Fits (st maxVal 1 7) (maxVal + 0)) ∧
    (Operand (st maxVal 1 7) (.reg 0) maxVal ∧ Operand (st maxVal 1 7) (.reg 1) 1 ∧
      ¬Fits (st maxVal 1 7) (maxVal + 1)) := by
  refine ⟨⟨operand_max.1, rfl, ?_⟩, operand_max.1, operand_max.2, ?_⟩ <;> unfold Fits <;> decide +kernel

theorem witness_SubIsExactOrNegative :
    (Operand (st 5 3 7) (.reg 0) 5 ∧ Operand (st 5 3 7) (.const 5) 5 ∧ 5 + 0 = 5) ∧
    (Operand (st 5 3 7) (.reg 0) 5 ∧ Operand (st 5 3 7) (.const 6) 6 ∧ 5 < 6) :=
  ⟨⟨st_operand_reg.1, rfl, rfl⟩, st_operand_reg.1, rfl, by decide⟩

theorem witness_MulIsExactOrRefused :
    (Operand (st maxVal 1 7) (.reg 0) maxVal ∧ Operand (st maxVal 1 7) (.const 1) 1 ∧
      Fits (st maxVal 1 7) (maxVal * 1)) ∧
    (Operand (st maxVal 1 7) (.reg 0) maxVal ∧ Operand (st maxVal 1 7) (.const 2) 2 ∧
      ¬Fits (st maxVal 1 7) (maxVal * 2)) := by
  refine ⟨⟨operand_max.1, rfl, ?_⟩, operand_max.1, rfl, ?_⟩ <;> unfold Fits <;> decide +kernel

/-- A zero divisor and a non-zero one, with different destinations. -/
theorem witness_DivisionCommandsDivide : (2 : RegNo) ≠ 3 ∧
    (Operand (st 5 3 7) (.reg 0) 5 ∧ Operand (st 5 3 7) (.const 0) 0 ∧ (0 : Nat) = 0) ∧
    (Operand (st 5 3 7) (.reg 0) 5 ∧ Operand (st 5 3 7) (.reg 1) 3 ∧ (3 : Nat) ≠ 0) :=
  ⟨by decide, ⟨st_operand_reg.1, rfl, rfl⟩, st_operand_reg.1, st_operand_reg.2.1, by decide⟩

/-- S6, the empty buffer at the end of LMEM, fits; S11, five limbs, does not. -/
theorem witness_LoadReadsLittleEndian :
    (let s := stArgs 0 4096 0 0 []
     argOffset s % 4 = 0 ∧ argLength s % 4 = 0 ∧ argOffset s + argLength s ≤ s.cfg.lmemBytes ∧
      (∀ i, i < argLength s → s.lmem.read (argOffset s + i) = BitVec.ofNat 8 (0 / 256 ^ i)) ∧
      0 < 256 ^ argLength s ∧ LimbCount 0 0 ∧ Fits s 0) ∧
    (let s := stArgs 0 0 20 16 [1]
     argOffset s % 4 = 0 ∧ argLength s % 4 = 0 ∧ argOffset s + argLength s ≤ s.cfg.lmemBytes ∧
      (∀ i, i < argLength s → s.lmem.read (argOffset s + i) = BitVec.ofNat 8 (2 ^ 128 / 256 ^ i)) ∧
      2 ^ 128 < 256 ^ argLength s ∧ LimbCount (2 ^ 128) 5 ∧ ¬Fits s (2 ^ 128)) := by
  refine ⟨⟨?_, ?_, ?_, ?_, ?_, ⟨?_, ?_⟩, ?_⟩, ⟨?_, ?_, ?_, ?_, ?_, ⟨?_, ?_⟩, ?_⟩⟩ <;>
    first | decide +kernel | (unfold Fits; decide +kernel)

/-- B0 = 0x11_22334455, two limbs, at the last 8 bytes of LMEM (exact fit), and with 4 bytes. -/
theorem witness_StoreWritesCanonicalBytes :
    (let s := stArgs 0x1122334455 4088 8 0 []
     s.lmem.wf = true ∧ Operand s (.reg 0) 0x1122334455 ∧ LimbCount 0x1122334455 2 ∧
      argOffset s % 4 = 0 ∧ argLength s % 4 = 0 ∧ argOffset s + argLength s ≤ s.cfg.lmemBytes ∧
      4 * 2 ≤ argLength s) ∧
    (let s := stArgs 0x1122334455 4092 4 0 []
     s.lmem.wf = true ∧ Operand s (.reg 0) 0x1122334455 ∧ LimbCount 0x1122334455 2 ∧
      argOffset s % 4 = 0 ∧ argLength s % 4 = 0 ∧ argOffset s + argLength s ≤ s.cfg.lmemBytes ∧
      argLength s < 4 * 2) := by
  refine ⟨⟨?_, ⟨?_, ?_⟩, ⟨?_, ?_⟩, ?_, ?_, ?_, ?_⟩, ⟨?_, ⟨?_, ?_⟩, ⟨?_, ?_⟩, ?_, ?_, ?_, ?_⟩⟩ <;>
    decide +kernel

/-- The padded block of 12 bytes, and the one that is too small. -/
theorem witness_StorepWritesPaddedBlock :
    (let s := stArgs 0x1122334455 4084 12 0 []
     s.lmem.wf = true ∧ Operand s (.reg 0) 0x1122334455 ∧ LimbCount 0x1122334455 2 ∧
      argOffset s % 4 = 0 ∧ argLength s % 4 = 0 ∧ argOffset s + argLength s ≤ s.cfg.lmemBytes ∧
      4 * 2 ≤ argLength s) ∧
    (let s := stArgs 0x1122334455 0 4 0 []
     s.lmem.wf = true ∧ Operand s (.reg 0) 0x1122334455 ∧ LimbCount 0x1122334455 2 ∧
      argOffset s % 4 = 0 ∧ argLength s % 4 = 0 ∧ argOffset s + argLength s ≤ s.cfg.lmemBytes ∧
      argLength s < 4 * 2) := by
  refine ⟨⟨?_, ⟨?_, ?_⟩, ⟨?_, ?_⟩, ?_, ?_, ?_, ?_⟩, ⟨?_, ⟨?_, ?_⟩, ⟨?_, ?_⟩, ?_, ?_, ?_, ?_⟩⟩ <;>
    decide +kernel

/-- S9, S10 and S7's range, each also for a STORE with a readable source. -/
theorem witness_BadBuffersAreRefused :
    ((∃ rd, Instr.load 2 = .load rd) ∧ (stArgs 0 1 3 0 []).a0l.toNat % 4 ≠ 0) ∧
    ((stArgs 0 0 2 0 []).a0l.toNat % 4 = 0 ∧ (stArgs 0 0 2 0 []).a1l.toNat % 4 ≠ 0) ∧
    ((stArgs 0 4096 4 0 []).a0l.toNat % 4 = 0 ∧ (stArgs 0 4096 4 0 []).a1l.toNat % 4 = 0 ∧
      (stArgs 0 4096 4 0 []).cfg.lmemBytes <
        (stArgs 0 4096 4 0 []).a0l.toNat + (stArgs 0 4096 4 0 []).a1l.toNat) ∧
    Operand (stArgs 0 4096 4 0 []) (.const 3) 3 :=
  ⟨⟨⟨2, rfl⟩, by decide +kernel⟩, by decide +kernel, by decide +kernel, rfl⟩

/-- A small state that meets the invariant. -/
theorem stArgs_inv : (stArgs 0x1122334455 8 12 0 [0xAA]).Inv := by
  refine ⟨by decide, fun i => ?_, by decide +kernel, by decide +kernel, by decide, by decide, by decide,
    by decide⟩
  unfold Fits; revert i; decide +kernel

theorem stArgs_operand : Operand (stArgs 0x1122334455 8 12 0 [0xAA]) (.reg 0) 0x1122334455 := by
  refine ⟨?_, ?_⟩ <;> decide +kernel

theorem witness_StoreThenLoadRoundTrips :
    (∃ t, exec (.store (.reg 0)) (stArgs 0x1122334455 8 12 0 [0xAA]) = .next t ∧ t.status.err = false ∧
      t.result = 8) ∧
    (∃ t, exec (.storep (.reg 0)) (stArgs 0x1122334455 8 12 0 [0xAA]) = .next t ∧
      t.status.err = false ∧ (12 : Word).toNat % 4 = 0 ∧ t.result.toNat ≤ (12 : Word).toNat ∧
      (12 : Word).toNat ≤ (stArgs 0x1122334455 8 12 0 [0xAA]).a1l.toNat) :=
  ⟨⟨_, rfl, by decide +kernel⟩, ⟨_, rfl, by decide +kernel⟩⟩

theorem witness_GcdIsTheGreatestCommonDivisor :
    Operand (st 5 3 7) (.reg 0) 5 ∧ Operand (st 5 3 7) (.const 0) 0 := ⟨st_operand_reg.1, rfl⟩

/-- m = 1; gcd 3; gcd 1 at the least legal modulus. -/
theorem witness_ModinvIsTheUniqueInverse :
    (Operand (st 5 3 7) (.reg 0) 5 ∧ Operand (st 5 3 7) (.const 1) 1 ∧ 1 < 2) ∧
    (Operand (st 5 3 7) (.reg 1) 3 ∧ Operand (st 5 3 7) (.const 9) 9 ∧ 2 ≤ 9 ∧ Nat.gcd 3 9 ≠ 1) ∧
    (Operand (st 5 3 7) (.reg 1) 3 ∧ Operand (st 5 3 7) (.const 2) 2 ∧ 2 ≤ 2 ∧ Nat.gcd 3 2 = 1) :=
  ⟨⟨st_operand_reg.1, rfl, by decide⟩, ⟨st_operand_reg.2.1, rfl, by decide, by decide⟩,
    st_operand_reg.2.1, rfl, by decide, by decide⟩

theorem witness_ModpowIsThePowerModM :
    (Operand (st 5 3 7) (.reg 0) 5 ∧ Operand (st 5 3 7) (.reg 1) 3 ∧ Operand (st 5 3 7) (.const 0) 0) ∧
    (Operand (st 5 3 7) (.reg 0) 5 ∧ Operand (st 5 3 7) (.const 0) 0 ∧
      Operand (st 5 3 7) (.const 1) 1 ∧ (1 : Nat) ≠ 0) :=
  ⟨⟨st_operand_reg.1, st_operand_reg.2.1, rfl⟩, st_operand_reg.1, rfl, rfl, by decide⟩

theorem witness_JacobiIsTheJacobiSymbol :
    (Operand (st 5 3 7) (.reg 0) 5 ∧ Operand (st 5 3 7) (.const 0) 0 ∧ 0 % 2 = 0) ∧
    (Operand (st 5 3 7) (.reg 0) 5 ∧ Operand (st 5 3 7) (.const 1) 1 ∧ 1 % 2 = 1) :=
  ⟨⟨st_operand_reg.1, rfl, rfl⟩, st_operand_reg.1, rfl, rfl⟩

theorem witness_IllegalOperandsAreRefused :
    (Instr.mov 1 (.reserved 0)).wf = false ∧ (Instr.div 2 2 (.reg 0) (.reg 1)).wf = false := by decide

theorem witness_UninitialisedSourcesAreRefused : (Instr.add 2 (.const 1) (.reg 3)).wf = true ∧
    ∃ x ∈ (Instr.add 2 (.const 1) (.reg 3)).srcs, Uninit State.reset x :=
  ⟨by decide, .reg 3, by decide, show (State.reset.breg[(3 : Fin 16)]).valid = false by decide +kernel⟩

theorem witness_EveryCommandSucceedsOrFailsOutright :
    (stFly 5 0 0 0xFFFFFFFF).status.busy = true ∧ (stFly 5 0 0 0xFFFFFFFF).rst = false := by
  decide +kernel

theorem witness_FailedCommandHasNoEffect :
    (stFly 5 0 0 0xFFFFFFFF).status.busy = true ∧ (stFly 5 0 0 0xFFFFFFFF).rst = false ∧
    ∃ t, coreTurn (stFly 5 0 0 0xFFFFFFFF) = .next t ∧ t.status.err = true :=
  ⟨by decide +kernel, by decide +kernel, _, rfl, by decide +kernel⟩

/-- An exec that gives a next state, a valid register, and commands with each column of R44 empty. -/
theorem witness_CommandsWriteOnlyWhatTheirRowNames :
    (∃ t, exec (.mov 2 (.const 1)) (st 5 3 7) = .next t) ∧ (st 5 3 7).breg[(0 : Fin 16)].valid = true ∧
    writesZ (.store (.const 1)) = false ∧ ¬writesOrder (.mov 2 (.const 1)) ∧
    writesResult (.mov 2 (.const 1)) = false ∧ ¬writesMem (.mov 2 (.const 1)) :=
  ⟨⟨_, rfl⟩, by decide +kernel, rfl, (fun ⟨_, _, h⟩ => nomatch h), rfl,
    fun ⟨_, h⟩ => nomatch h⟩

theorem witness_CommandsUseOnlyLatchedArguments :
    ∃ t, exec (.movi 2) (stArgs 0 5 0 0 []) = .next t := ⟨_, rfl⟩

theorem witness_CmdWriteAcceptsOrOverruns :
    (hostWrite 0x14 0 (st 5 3 7)).rst = false ∧
    (hostWrite 0x14 0 (st 5 3 7)).inputs = [.bus ⟨.write, 4, 0 + 0x14, 0⟩] ∧
    (hostWrite 0x14 0 (st 5 3 7)).status.busy = false ∧
    (hostWrite 0x14 0 (inFlight 0 (st 5 3 7))).status.busy = true := by decide +kernel

/-- The first and the last offset of the register block. -/
theorem witness_RegisterReadsFollowTheMap : (st 5 3 7).cfg.wf ∧ (st 5 3 7).rst = false ∧
    [0x000, 0xFFC].all (fun off => decide (off < 0x1000 ∧ off % 4 = 0 ∧
      (hostRead off (st 5 3 7)).inputs = [.bus ⟨.read, 4, (st 5 3 7).cfg.base + off, 0⟩])) = true := by
  decide +kernel

theorem witness_RegisterWritesFollowTheMap : (st 5 3 7).rst = false ∧ (1 : Word).getLsbD 1 = false ∧
    [0x000, 0x00C, 0xFFC].all (fun off => decide (off < 0x1000 ∧ off % 4 = 0 ∧
      (hostWrite off 1 (st 5 3 7)).inputs = [.bus ⟨.write, 4, (st 5 3 7).cfg.base + off, 1⟩])) = true := by
  decide +kernel

/-- A state whose next input is the access a and that does not make it wait. -/
theorem hostTurn_st (a : Access) : HostTurn { st 5 3 7 with inputs := [.bus a] } a [] :=
  ⟨rfl, rfl, .inl rfl⟩

/-- A fetch; a misaligned 16-bit read of the last LMEM byte; a byte read of that byte. -/
theorem witness_UnpermittedAccessHasNoEffect :
    HostTurn { st 5 3 7 with inputs := [.bus ⟨.fetch, 4, 0, 0⟩] } ⟨.fetch, 4, 0, 0⟩ [] ∧
    ¬permitted (st 5 3 7).cfg ⟨.fetch, 4, 0, 0⟩ 0 ∧
    ¬permitted (st 5 3 7).cfg ⟨.read, 2, 0x1FFF, 0⟩ 0x1FFF ∧
    permitted (st 5 3 7).cfg ⟨.read, 1, 0x1FFF, 0⟩ 0x1FFF ∧ 0x1FFF < 2 ^ 25 := by
  refine ⟨hostTurn_st _, ?_, ?_, ?_, by decide⟩ <;> unfold permitted <;> decide +kernel

theorem witness_ReadsHaveNoSideEffects :
    HostTurn { st 5 3 7 with inputs := [.bus ⟨.read, 4, 0x10, 0⟩] } ⟨.read, 4, 0x10, 0⟩ [] ∧
    ∃ t, step { st 5 3 7 with inputs := [.bus ⟨.read, 4, 0x10, 0⟩] } = .next t :=
  ⟨hostTurn_st _, _, rfl⟩

/-- A 16-bit write of the last two bytes of LMEM. -/
theorem witness_HostAccessToLmemIsLittleEndian : (st 5 3 7).cfg.wf ∧ (st 5 3 7).lmem.wf = true ∧
    HostTurn { st 5 3 7 with inputs := [.bus ⟨.write, 2, 0x1FFE, 0xABCD⟩] } ⟨.write, 2, 0x1FFE, 0xABCD⟩ [] ∧
    (0x1FFE : Nat) = (st 5 3 7).cfg.base + 0x1000 + 0xFFE ∧
    permitted (st 5 3 7).cfg ⟨.write, 2, 0x1FFE, 0xABCD⟩ (0x1000 + 0xFFE) := by
  refine ⟨by decide, by decide, hostTurn_st _, by decide, ?_⟩
  unfold permitted; decide +kernel

/-- The first and last byte of LMEM, and the last register offset before it. -/
theorem witness_LmemAccessWaitsForCompletion : (stFly 5 0 0 0).cfg.wf ∧
    (⟨.read, 4, 0xFFC, 0⟩ :: lmemEdgeAccesses).all (fun a =>
      let s := stFlyMeets [.bus a] 0
      decide (s.cfg = (stFly 5 0 0 0).cfg ∧ s.rst = false ∧ s.status.busy = true ∧
        s.inputs = .bus a :: [])) = true ∧
    lmemEdgeAccesses.all (fun a => decide ((stFly 5 0 0 0).cfg.base + 0x1000 ≤ a.addr ∧
      a.addr < (stFly 5 0 0 0).cfg.base + 0x1000 + (stFly 5 0 0 0).cfg.lmemBytes)) = true ∧
    (stFly 5 0 0 0).cfg.base ≤ 0xFFC ∧ 0xFFC < (stFly 5 0 0 0).cfg.base + 0x1000 := by decide +kernel

theorem witness_SoftResetKeepsOnlyLmem : (hostWrite 0x0C 3 (stFly 5 0 0 0)).rst = false ∧
    (3 : Word).getLsbD 1 = true ∧
    (hostWrite 0x0C 3 (stFly 5 0 0 0)).inputs = [.bus ⟨.write, 4, 0 + 0x0C, 3⟩] := by decide +kernel

theorem witness_HardResetSetsResetValues :
    { st 5 3 7 with inputs := [.rstAssert, .rstRelease [(4095, 0xAA)]] }.inputs =
      .rstAssert :: .rstRelease [(4095, 0xAA)] :: [] ∧
    ([(4095, 0xAA#8)].map Prod.fst).Nodup ∧ 4095 < (st 5 3 7).cfg.lmemBytes := by decide +kernel

/-- IRQ rises at a completion and at a write of IE, and falls at a write of DONE. -/
theorem witness_IrqChangesOnlyByItsCauses :
    (let s := { stFly 5 0 0 0 with ie := true }
     s.irq = false ∧ (stepped s).map (·.irq) = some true) ∧
    (let s := hostWrite 0x0C 1 { st 5 3 7 with
      status := ⟨false, true, false, false, false, false, false, false, 0⟩ }
     s.irq = false ∧ (stepped s).map (·.irq) = some true) ∧
    (let s := hostWrite 0x10 2 { st 5 3 7 with
      ie := true, status := ⟨false, true, false, false, false, false, false, false, 0⟩ }
     s.irq = true ∧ (stepped s).map (·.irq) = some false) := by decide +kernel

theorem witness_OnlyResetClearsValidBits : (st 5 3 7).breg[(0 : Fin 16)].valid = true ∧
    (stepped (hostWrite 0x0C 2 (st 5 3 7))).map (·.breg[(0 : Fin 16)].valid) = some false := by
  decide +kernel

/-- A host write to ARG0 while a command runs. -/
theorem witness_CommandInFlightIsUndisturbed : (hostWrite 0x18 9 (stFly 5 0 0 0)).status.busy = true ∧
    (stepped (hostWrite 0x18 9 (stFly 5 0 0 0))).map (·.status.busy) = some true := by decide +kernel

theorem witness_CmdcntCountsCompletions :
    ((stFly 5 0 0 0).status.busy = true ∧
      (stepped (stFly 5 0 0 0)).map (fun t => (t.status.busy, t.status.done)) = some (false, true)) ∧
    (stepped (hostWrite 0x14 0 (stFly 5 0 0 0))).map (·.status.busy) = some true := by decide +kernel

theorem witness_ResetMeetsInvariant : (st 5 3 7).cfg.wf := by decide

theorem witness_StepKeepsInvariant : (stArgs 0x1122334455 8 12 0 [0xAA]).Inv ∧
    ∃ t, step (stArgs 0x1122334455 8 12 0 [0xAA]) = .next t := ⟨stArgs_inv, _, rfl⟩

/-- Reset, and reset with another value in the invalid register B3. -/
theorem witness_InvalidRegistersAreUnobservable :
    SameButInvalid State.reset { State.reset with breg := State.reset.breg.set 3 ⟨99, false⟩ } ∧
    { State.reset with breg := State.reset.breg.set 3 ⟨99, false⟩ } ≠ State.reset := by
  refine ⟨⟨rfl, ?_⟩, by decide +kernel⟩
  decide +kernel

theorem witness_ContractRunsNeverStop : keepsContract Config.reference false
    [.bus ⟨.write, 4, 0x14, 0⟩, .core, .rstAssert, .rstRelease [], .bus ⟨.read, 4, 0x10, 0⟩] = true := by
  decide

theorem witness_EveryRunComesToItsEnd : (hostWrite 0x14 0 (st 5 3 7)).rst = false ∧
    (∀ i ∈ (hostWrite 0x14 0 (st 5 3 7)).inputs, i = .core ∨ ∃ a, i = .bus a) := by
  refine ⟨rfl, fun i hi => ?_⟩
  rw [List.mem_singleton.1 hi]; exact .inr ⟨_, rfl⟩

/-- The sum fits, and the second source can be read again after the ADD. -/
theorem witness_AddThenSubGivesBack :
    Operand (st 5 3 7) (.reg 0) 5 ∧ Operand (st 5 3 7) (.reg 1) 3 ∧
    len (5 + 3) ≤ (st 5 3 7).cfg.maxl ∧
    ∃ t, exec (.add 2 (.reg 0) (.reg 1)) (st 5 3 7) = .next t ∧ Operand t (.reg 1) 3 := by
  refine ⟨st_operand_reg.1, st_operand_reg.2.1, by decide, _, rfl, ?_, ?_⟩ <;> decide +kernel

theorem witness_RippleBorrowSubtractorIsExact : (3 < 5) ∧ (5 ≤ 5) := by decide

theorem witness_LongDivisionIsExact : 0 < 1 := by decide

end Sys2Proof.Tests
end

