-- ==== Sys2Proof/Proofs/Scope.lean ====
section
/-! PROOFS. LEN and GCD on readable sources: the limb count and the greatest common divisor
(spec/00_scope.md R14, R15; spec/40_construct_compare.md R105; spec/45_modular.md R165, R166). -/

namespace Sys2Proof.Machine

/-! ### LEN -/

/-- The writes of a LEN that succeeds: the limb count k in RESULT, and Z from it (R105). -/
def lenWrites (k : Nat) : Writes := { z := some (zeroFlag k), result := some (zext32 k) }

theorem exec_len_of_operand {sa : Src} {s : State} {a : Nat} (ha : Operand s sa a) :
    exec (.len sa) s = .next (complete (.ok (lenWrites (len a))) s) := by
  show execLen sa s = _
  rw [execLen, withSrc_operand ha, lenWrites]

theorem complete_lenWrites_z (k : Nat) (s : State) :
    (complete (.ok (lenWrites k)) s).status.z = true ↔ k = 0 := by
  simp [complete_ok_z, lenWrites, zeroFlag]

/-- Settles O12: the model's `len` is the limb count of R15, and the completion writes it. -/
theorem lenCountsLimbs : Obligations.LenCountsLimbs := by
  intro sa s a k ha hk
  have hlen : len a = k := len_of_limbCount hk
  exact ⟨complete (.ok (lenWrites k)) s, hlen ▸ exec_len_of_operand ha, succeeded_complete _ _,
    sameRegs_complete _ _ rfl, fun _ => rfl, ⟨rfl, rfl, rfl⟩, complete_lenWrites_z k s, rfl⟩

/-! ### GCD -/

theorem exec_gcd_of_operands {rd : RegNo} {sa sb : Src} {s : State} {a b : Nat}
    (ha : Operand s sa a) (hb : Operand s sb b) :
    exec (.gcd rd sa sb) s = .next (complete (.ok (writeDst rd (Nat.gcd a b))) s) := by
  show execGcd rd sa sb s = _
  rw [execGcd, withSrcs_operand ha hb, euclid_eq]

/-- Settles O22: the Euclid engine ends at the greatest common divisor (`euclid_eq`), and the completion
writes it. -/
theorem gcdIsTheGreatestCommonDivisor : Obligations.GcdIsTheGreatestCommonDivisor := by
  intro rd sa sb s a b ha hb
  exact ⟨_, exec_gcd_of_operands ha hb, wroteReg_complete_dst rd (Nat.gcd a b) s, rfl⟩

end Sys2Proof.Machine
end

/-! PROOFS. The state: what every step keeps of the registers, the status, the counters and LMEM; what a
command reads and writes; and the register block as the host sees it (spec/10_state.md). -/

namespace Sys2Proof.Machine

/-! ### The machine's invariant (R40, R47, R56, R61, R62, R65, R201) -/

/-- The part of `State.Inv` that speaks of STATUS alone: ERRCODE in range and agreeing with ERR, BUSY and
DONE exclusive, at most one of LT, EQ and GT. -/
structure StatusInv (st : Status) : Prop where
  errRange : st.errcode.toNat ≤ 0x0A
  errAgree : st.err = true ↔ st.errcode ≠ 0
  busyDone : ¬(st.busy = true ∧ st.done = true)
  oneOrder : ¬(st.lt = true ∧ st.eq = true) ∧ ¬(st.lt = true ∧ st.gt = true) ∧
    ¬(st.eq = true ∧ st.gt = true)

theorem State.Inv.statusInv {s : State} (h : s.Inv) : StatusInv s.status :=
  ⟨h.errRange, h.errAgree, h.busyDone, h.oneOrder⟩

/-- The invariant survives a step that keeps parameters and registers, if the new LMEM and the new STATUS
meet their parts of it. -/
theorem State.Inv.of_parts {s t : State} (h : s.Inv) (hcfg : t.cfg = s.cfg)
    (hregs : ∀ i : RegNo, Fits s (t.breg[i]).value) (hform : t.lmem.wf = true)
    (hsize : t.lmem.within s.cfg.lmemBytes = true) (hst : StatusInv t.status) : t.Inv := by
  obtain ⟨hrange, hagree, hexcl, horder⟩ := hst
  refine ⟨hcfg ▸ h.cfg, fun i => ?_, hform, hcfg ▸ hsize, hrange, hagree, hexcl, horder⟩
  rw [Fits, hcfg]
  exact hregs i

/-- Only parameters, registers, LMEM and STATUS matter to the invariant. -/
theorem State.Inv.of_status {s t : State} (h : s.Inv) (hcfg : t.cfg = s.cfg) (hb : t.breg = s.breg)
    (hm : t.lmem = s.lmem) (hst : StatusInv t.status) : t.Inv :=
  h.of_parts hcfg (hb ▸ h.regs) (hm ▸ h.memForm) (hm ▸ h.memSize) hst

theorem statusInv_reset : StatusInv ⟨false, false, false, false, false, false, false, false, 0⟩ := by
  constructor <;> decide

theorem StatusInv.writeOneToClear {st : Status} (h : StatusInv st) (d : Word) :
    StatusInv (st.writeOneToClear d) := by
  refine ⟨h.errRange, h.errAgree, fun ⟨hb, hd⟩ => h.busyDone ⟨hb, ?_⟩, h.oneOrder⟩
  exact (Bool.and_eq_true _ _ ▸ hd).1

/-- Accepting a command sets BUSY and clears DONE, or sets OVR alone (R61). -/
theorem StatusInv.accept {s : State} (h : StatusInv s.status) (w : Word) :
    StatusInv (acceptCommand w s).status := by
  unfold acceptCommand
  split
  · exact ⟨h.errRange, h.errAgree, h.busyDone, h.oneOrder⟩
  · exact ⟨h.errRange, h.errAgree, by simp, h.oneOrder⟩

/-- A failure puts a non-zero code of R201 beside ERR = 1. -/
theorem StatusInv.complete_error {s : State} (h : StatusInv s.status) (c : ErrCode) :
    StatusInv (complete (.error c) s).status := by
  obtain ⟨hpos, hle⟩ := errorCode_range c
  refine ⟨hle, iff_of_true rfl fun hz => ?_, by simp, h.oneOrder⟩
  rw [complete_error_errcode] at hz
  rw [hz] at hpos
  exact absurd hpos (by decide)

/-- A success clears ERR and ERRCODE, and a CMP sets exactly one of LT, EQ and GT. -/
theorem StatusInv.complete_ok {s : State} (h : StatusInv s.status) (w : Writes) :
    StatusInv (complete (.ok w) s).status := by
  refine ⟨by simp, by simp, by simp, ?_⟩
  rw [complete_ok_lt, complete_ok_eq, complete_ok_gt]
  cases w.order with
  | none => exact h.oneOrder
  | some c => cases c <;> simp

/-- The writes of a success keep every register value within MAXL limbs (R40, R214). -/
theorem AllowedWrites.regs_fit {i : Instr} {s : State} {w : Writes} (hw : AllowedWrites i s w)
    (h : s.Inv) (r : RegNo) : Fits s ((writeRegs s.breg w.dst)[r]).value := by
  obtain hr | ⟨v, hv, hr⟩ := writeRegs_cases w.dst s.breg r
  · rw [hr]
    exact h.regs r
  · rw [hr]
    exact hw.fits h.cfg.1 h.regs _ hv

/-- The LMEM write of a success keeps LMEM canonical and inside its array (R65). -/
theorem AllowedWrites.lmem_inv {i : Instr} {s : State} {w : Writes} (hw : AllowedWrites i s w)
    (h : s.Inv) : (complete (.ok w) s).lmem.wf = true ∧
      (complete (.ok w) s).lmem.within s.cfg.lmemBytes = true := by
  rw [complete_ok_lmem]
  cases hm : w.mem with
  | none => exact ⟨h.memForm, h.memSize⟩
  | some st => exact ⟨wf_memWrite h.memForm _ _ _, within_memWrite h.memSize (hw.mem st hm) _⟩

/-- A completion keeps the invariant, whatever the command's outcome. -/
theorem State.Inv.complete {s : State} (h : s.Inv) {o : CmdOutcome}
    (ho : ∀ w, o = .ok w → ∃ i, AllowedWrites i s w) : (complete o s).Inv := by
  cases o with
  | error c => exact h.of_status rfl rfl rfl (h.statusInv.complete_error c)
  | ok w =>
    obtain ⟨i, hw⟩ := ho w rfl
    obtain ⟨hform, hsize⟩ := hw.lmem_inv h
    exact h.of_parts rfl (hw.regs_fit h) hform hsize (h.statusInv.complete_ok w)

theorem fits_reset_breg (s : State) (i : RegNo) :
    Fits s ((Vector.replicate 16 (⟨0, false⟩ : BReg))[i]).value := by
  simp [Fits]

theorem State.Inv.softReset {s : State} (h : s.Inv) : (softReset s).Inv :=
  h.of_parts rfl (fits_reset_breg s) h.memForm h.memSize statusInv_reset

theorem State.Inv.hardReset {s : State} (h : s.Inv) (draw : List (Nat × BitVec 8)) :
    (hardReset draw s).Inv :=
  have ⟨hform, hsize⟩ := drawMemory_wf s.cfg.lmemBytes draw
  h.of_parts rfl (fits_reset_breg s) hform hsize statusInv_reset

/-- A write of the register block keeps the invariant. -/
theorem State.Inv.regWrite {s : State} (h : s.Inv) (d : Word) (off : Nat) : (regWrite d off s).Inv := by
  obtain ⟨-, -, e⟩ | ⟨-, -, e⟩ | ⟨-, e⟩ | ⟨-, e⟩ | ⟨-, e⟩ | ⟨-, e⟩ | e := regWrite_cases d off s <;>
    rw [e]
  · exact h.softReset
  · exact h.of_status rfl rfl rfl h.statusInv
  · exact h.of_status rfl rfl rfl (h.statusInv.writeOneToClear d)
  · exact h.of_status (accept_cfg s d) (accept_breg s d) (accept_lmem s d) (h.statusInv.accept d)
  · exact h.of_status rfl rfl rfl h.statusInv
  · exact h.of_status rfl rfl rfl h.statusInv
  · exact h

/-- A host access that does not wait keeps the invariant: its one write outside the register block falls
inside LMEM (R65, R69). -/
theorem State.Inv.busAccess {s : State} (h : s.Inv) (a : Access) : (busAccess a s).Inv := by
  obtain ⟨r, e⟩ | ⟨off, d, -, -, -, e⟩ | ⟨k, -, -, hk, -, e⟩ := busAccess_cases a s <;> rw [e]
  · exact h.of_status rfl rfl rfl h.statusInv
  · exact (h.regWrite d off).of_status rfl rfl rfl (h.regWrite d off).statusInv
  · exact h.of_parts rfl h.regs (wf_memWrite h.memForm _ _ _) (within_memWrite h.memSize hk _)
      h.statusInv

/-- The pending inputs are no part of the invariant. -/
theorem State.Inv.with_inputs {s : State} (h : s.Inv) (is : List Input) :
    State.Inv { s with inputs := is } :=
  h.of_status rfl rfl rfl h.statusInv

/-- Settles O46: each kind of step of `step_cases` keeps the invariant. -/
theorem stepKeepsInvariant : Obligations.StepKeepsInvariant := by
  intro s t h hstep
  obtain ⟨o, is, -, -, rfl, ho⟩ | ⟨is, rfl⟩ | ⟨a, is, -, -, -, rfl⟩ | ⟨is, -, rfl⟩ |
    ⟨draw, is, -, -, rfl⟩ := step_cases hstep
  · exact (h.with_inputs is).complete fun w hw => (ho w hw).imp fun _ hi => hi.2
  · exact h.with_inputs is
  · exact (h.with_inputs is).busAccess a
  · exact h.of_status rfl rfl rfl h.statusInv
  · exact (h.with_inputs is).hardReset draw

/-! ### The values of invalid registers are never observed (R40, R42) -/

theorem SameButInvalid.refl (s : State) : SameButInvalid s s :=
  ⟨rfl, fun _ => ⟨rfl, fun _ => rfl⟩⟩

/-- An operation that neither reads nor writes the register file keeps the relation. -/
theorem SameButInvalid.map {s s' : State} (h : SameButInvalid s s') (f : State → State)
    (hread : ∀ s b, f { s with breg := b } = { f s with breg := b })
    (hkeep : ∀ s, (f s).breg = s.breg) : SameButInvalid (f s) (f s') := by
  obtain ⟨e, hb⟩ := h
  refine ⟨?_, fun i => ?_⟩
  · rw [hkeep s', ← hread, ← e]
  · rw [hkeep s', hkeep s]
    exact hb i

theorem SameButInvalid.with_inputs {s s' : State} (h : SameButInvalid s s') (is : List Input) :
    SameButInvalid { s with inputs := is } { s' with inputs := is } :=
  h.map (fun s => { s with inputs := is }) (fun _ _ => rfl) fun _ => rfl

theorem answer_congr {s s' : State} (h : SameButInvalid s s') (r : Response) :
    SameButInvalid (answer r s) (answer r s') :=
  h.map (answer r) (fun _ _ => rfl) (answer_breg · r)

theorem acceptCommand_congr {s s' : State} (h : SameButInvalid s s') (w : Word) :
    SameButInvalid (acceptCommand w s) (acceptCommand w s') := by
  refine h.map (acceptCommand w) (fun s b => ?_) (accept_breg · w)
  unfold acceptCommand
  split <;> rfl

/-- The resets overwrite every register, so the two states become one. -/
theorem resetControl_congr {s s' : State} (h : SameButInvalid s s') :
    resetControl s' = resetControl s := by
  rw [h.1]; rfl

theorem softReset_congr {s s' : State} (h : SameButInvalid s s') :
    SameButInvalid (softReset s) (softReset s') := by
  rw [softReset, softReset, resetControl_congr h]
  exact .refl _

theorem hardReset_congr {s s' : State} (h : SameButInvalid s s') (draw : List (Nat × BitVec 8)) :
    SameButInvalid (hardReset draw s) (hardReset draw s') := by
  have hcfg : s'.cfg = s.cfg := by rw [h.1]
  rw [hardReset, hardReset, resetControl_congr h, hcfg]
  exact .refl _

theorem regWrite_congr {s s' : State} (h : SameButInvalid s s') (d : Word) (off : Nat) :
    SameButInvalid (regWrite d off s) (regWrite d off s') := by
  unfold regWrite writeCtrl
  split_ifs
  · exact softReset_congr h
  · exact h.map (fun s => { s with ie := d.getLsbD 0 }) (fun _ _ => rfl) fun _ => rfl
  · exact h.map (fun s => { s with status := s.status.writeOneToClear d }) (fun _ _ => rfl) fun _ => rfl
  · exact acceptCommand_congr h d
  · exact h.map (fun s => { s with arg0 := d }) (fun _ _ => rfl) fun _ => rfl
  · exact h.map (fun s => { s with arg1 := d }) (fun _ _ => rfl) fun _ => rfl
  · exact h

theorem regAccess_congr {s s' : State} (h : SameButInvalid s s') (a : Access) (off : Nat) :
    SameButInvalid (regAccess a off s) (regAccess a off s') := by
  unfold regAccess
  split
  · cases a.kind with
    | read => exact h.map (fun s => answer (.data (regRead s off)) s) (fun _ _ => rfl) fun _ => rfl
    | write => exact answer_congr (regWrite_congr h a.data off) .ack
    | fetch => exact answer_congr h .busError
  · exact answer_congr h .busError

/-- An LMEM access looks at the parameters and LMEM alone. -/
theorem lmemAccess_congr {s s' : State} (h : SameButInvalid s s') (a : Access) (k : Nat) :
    SameButInvalid (lmemAccess a k s) (lmemAccess a k s') := by
  refine h.map (lmemAccess a k) (fun s b => ?_) fun s => ?_ <;> unfold lmemAccess <;> split
  · cases a.kind <;> rfl
  · rfl
  · cases a.kind <;> rfl
  · rfl

theorem inWindow_congr {s s' : State} (h : SameButInvalid s s') (a : Access) :
    inWindow s' a = inWindow s a := by
  rw [h.1]; rfl

theorem inLmem_congr {s s' : State} (h : SameButInvalid s s') (a : Access) :
    inLmem s' a = inLmem s a := by
  rw [h.1]; rfl

theorem stalled_congr {s s' : State} (h : SameButInvalid s s') (a : Access) :
    stalled s' a = stalled s a := by
  rw [h.1]; rfl

theorem busAccess_congr {s s' : State} (h : SameButInvalid s s') (a : Access) :
    SameButInvalid (busAccess a s) (busAccess a s') := by
  have hoff : a.addr - s'.cfg.base = a.addr - s.cfg.base := by rw [h.1]
  unfold busAccess
  rw [inWindow_congr h, inLmem_congr h, hoff]
  split_ifs
  · exact regAccess_congr h a _
  · exact lmemAccess_congr h a _
  · exact answer_congr h .busError
  · exact h.map (fun s => { s with resp := none }) (fun _ _ => rfl) fun _ => rfl

/-- Two outcomes an observer cannot tell apart: next states that differ in invalid registers alone, or
one refusal. -/
def OutcomesAlike (o o' : Host.Outcome State Fault Refusal) : Prop :=
  (∃ t t', o = .next t ∧ o' = .next t' ∧ SameButInvalid t t') ∨
  ∃ r, o = .refused r ∧ o' = .refused r

theorem outcomesAlike_next {t t' : State} (h : SameButInvalid t t') :
    OutcomesAlike (.next t) (.next t') := .inl ⟨t, t', rfl, rfl, h⟩

theorem outcomesAlike_coreTurn {s s' : State} (h : SameButInvalid s s') :
    OutcomesAlike (coreTurn s) (coreTurn s') := .inl (coreTurn_congr h)

theorem outcomesAlike_completeCurrent {s s' : State} (h : SameButInvalid s s') :
    OutcomesAlike (completeCurrent s) (completeCurrent s') := by
  obtain ⟨o, e, e'⟩ := completeCurrent_congr h
  exact .inl ⟨_, _, e, e', complete_congr h o⟩

/-- Every input is taken alike. -/
theorem outcomesAlike_takeInput {s s' : State} (h : SameButInvalid s s') (i : Input)
    (rest : List Input) : OutcomesAlike (takeInput i rest s) (takeInput i rest s') := by
  have hrst : s'.rst = s.rst := by rw [h.1]
  cases i with
  | core => exact outcomesAlike_coreTurn (h.with_inputs rest)
  | bus a =>
    have hwin : (s'.rst && inWindow s' a) = (s.rst && inWindow s a) := by rw [hrst, inWindow_congr h]
    simp only [takeInput, hwin, stalled_congr h]
    split_ifs
    · exact .inr ⟨_, rfl, rfl⟩
    · exact outcomesAlike_completeCurrent h
    · exact outcomesAlike_next (busAccess_congr (h.with_inputs rest) a)
  | rstAssert =>
    exact outcomesAlike_next
      (h.map (fun s => { s with inputs := rest, rst := true }) (fun _ _ => rfl) fun _ => rfl)
  | rstRelease draw =>
    by_cases hr : s.rst = true
    · simp only [takeInput, hr, hrst.trans hr]
      exact outcomesAlike_next (hardReset_congr (h.with_inputs rest) draw)
    · simp only [takeInput, if_neg hr, if_neg (hrst ▸ hr)]
      exact outcomesAlike_next (h.with_inputs rest)

theorem outcomesAlike_step {s s' : State} (h : SameButInvalid s s') :
    OutcomesAlike (step s) (step s') := by
  have hin : s'.inputs = s.inputs := by rw [h.1]
  unfold step
  rw [hin]
  split
  · exact outcomesAlike_coreTurn h
  · exact outcomesAlike_takeInput h _ _

/-- Settles O47: the step treats related states alike (`outcomesAlike_step`), its parts one by one. -/
theorem invalidRegistersAreUnobservable : Obligations.InvalidRegistersAreUnobservable := by
  intro s s' h
  obtain ⟨t, t', e, e', ht⟩ | ⟨r, e, e'⟩ := outcomesAlike_step h
  · rw [e, e']
    refine ⟨fun u hu => ?_, fun r hr => by cases hr⟩
    cases hu
    exact ⟨t', rfl, ht⟩
  · rw [e, e']
    exact ⟨fun u hu => (by cases hu), fun _ hr => hr⟩

/-! ### What a command reads: its readable sources, and the latched arguments (R42, R50, R206) -/

/-- A legal command with an unreadable source comes out as UNINIT: its selectors are legal, so no check
stands before the reads (R206). -/
theorem exec_of_uninit {i : Instr} {s : State} (hwf : i.wf = true) (hu : ∃ x ∈ i.srcs, Uninit s x) :
    exec i s = .next (complete (.error .uninit) s) := by
  cases i with
  | nop | movi _ | load _ => simp [Instr.srcs] at hu
  | mov _ sa | tstz sa | len sa | store sa | storep sa =>
    have h : Uninit s sa := by simpa [Instr.srcs] using hu
    simp only [exec, execMov, execTstz, execLen, execStore, execStorep, withSrc_uninit h]
  | cmp sa sb | add _ sa sb | sub _ sa sb | mul _ sa sb | quo _ sa sb | mod _ sa sb | gcd _ sa sb
  | modinv _ sa sb | jacobi _ sa sb =>
    have h : Uninit s sa ∨ Uninit s sb := by simpa [Instr.srcs] using hu
    obtain ⟨ha, hb⟩ : sa.legal = true ∧ sb.legal = true := by
      simpa [Instr.wf, Instr.srcs, Instr.dstsDiffer] using hwf
    simp only [exec, execCmp, execAdd, execSub, execMul, execQuo, execMod, execGcd, execModinv,
      execJacobi, withSrcs_uninit ha hb h]
  | div rd re sa sb =>
    have h : Uninit s sa ∨ Uninit s sb := by simpa [Instr.srcs] using hu
    obtain ⟨⟨ha, hb⟩, hd⟩ : (sa.legal = true ∧ sb.legal = true) ∧ ¬rd = re := by
      simpa [Instr.wf, Instr.srcs, Instr.dstsDiffer] using hwf
    simp only [exec, execDiv, if_neg hd, withSrcs_uninit ha hb h]
  | modpow _ sa sb sc =>
    have h : Uninit s sa ∨ Uninit s sb ∨ Uninit s sc := by simpa [Instr.srcs] using hu
    obtain ⟨ha, hb, hc⟩ : sa.legal = true ∧ sb.legal = true ∧ sc.legal = true := by
      simpa [Instr.wf, Instr.srcs, Instr.dstsDiffer] using hwf
    simp only [exec, execModpow, withSrcs3_uninit ha hb hc h]

/-- Settles O27: such a command comes out as UNINIT (`exec_of_uninit`), and a failure has no effect. -/
theorem uninitialisedSourcesAreRefused : Obligations.UninitialisedSourcesAreRefused := by
  intro i s hwf hu
  exact ⟨_, exec_of_uninit hwf hu, failedWith_complete .uninit s⟩

/-- A completion carries ARG0 and ARG1 along. -/
theorem complete_with_args (o : CmdOutcome) (s : State) (x y : Word) :
    complete o { s with arg0 := x, arg1 := y } = { complete o s with arg0 := x, arg1 := y } := by
  cases o <;> rfl

/-- No command's outcome depends on ARG0 and ARG1: LOAD, STORE, STOREP and MOVI read A0L and A1L (R50). -/
theorem exec_with_args (i : Instr) (s : State) (x y : Word) :
    ∃ o, exec i s = .next (complete o s) ∧
      exec i { s with arg0 := x, arg1 := y } = .next (complete o { s with arg0 := x, arg1 := y }) := by
  cases i <;> exact ⟨_, rfl, rfl⟩

/-- Settles O31: the outcome is the same, and the completion keeps both registers. -/
theorem commandsUseOnlyLatchedArguments : Obligations.CommandsUseOnlyLatchedArguments := by
  intro i s t x y h
  obtain ⟨o, ho, ho'⟩ := exec_with_args i s x y
  rw [ho] at h
  cases h
  rw [ho', complete_with_args]

/-! ### What a command writes (R44, R47) -/

/-- A completion makes no register invalid (R42). -/
theorem complete_keeps_valid (o : CmdOutcome) (s : State) (r : RegNo)
    (h : (s.breg[r]).valid = true) : ((complete o s).breg[r]).valid = true := by
  cases o with
  | error c => exact h
  | ok w =>
    rw [complete_ok_breg]
    obtain hr | ⟨v, -, hr⟩ := writeRegs_cases w.dst s.breg r <;> rw [hr]
    exact h

section
variable {i : Instr} {s : State} {w : Writes}

theorem AllowedWrites.sameRegsBut (hw : AllowedWrites i s w) :
    SameRegsBut i.dsts s (complete (.ok w) s) :=
  fun r hr => writeRegs_other w.dst s.breg r (hw.dst ▸ hr)

theorem AllowedWrites.same_z (hw : AllowedWrites i s w) (h : writesZ i = false) :
    (complete (.ok w) s).status.z = s.status.z := by
  rw [complete_ok_z, hw.z h]; rfl

theorem AllowedWrites.sameOrder (hw : AllowedWrites i s w) (h : ¬writesOrder i) :
    SameOrder s (complete (.ok w) s) := by
  rw [SameOrder, complete_ok_lt, complete_ok_eq, complete_ok_gt, hw.order h]
  exact ⟨rfl, rfl, rfl⟩

theorem AllowedWrites.same_result (hw : AllowedWrites i s w) (h : writesResult i = false) :
    (complete (.ok w) s).result = s.result := by
  rw [complete_ok_result, hw.result h]; rfl

theorem AllowedWrites.sameMem (hw : AllowedWrites i s w) (h : ¬writesMem i) :
    SameMem s (complete (.ok w) s) := by
  intro a
  rw [complete_ok_lmem, hw.noMem h]

end

/-- Settles O30: a failure writes nothing of these, a success what `AllowedWrites` lets it. -/
theorem commandsWriteOnlyWhatTheirRowNames : Obligations.CommandsWriteOnlyWhatTheirRowNames := by
  intro i s t h
  obtain ⟨o, ho, hw⟩ := exec_cases i s
  rw [ho] at h
  cases h
  have hvalid := complete_keeps_valid o s
  cases o with
  | error c =>
    exact ⟨fun _ _ => rfl, hvalid, fun _ => rfl, fun _ => ⟨rfl, rfl, rfl⟩, fun _ => rfl,
      fun _ _ => rfl⟩
  | ok w =>
    have hw := hw w rfl
    exact ⟨hw.sameRegsBut, hvalid, hw.same_z, hw.sameOrder, hw.same_result, hw.sameMem⟩

/-! ### What a step does to valid bits, the command in flight and CMDCNT (R42, R59, R61) -/

/-- The registers, BUSY, the command in flight and CMDCNT are untouched. -/
structure Undisturbed (s t : State) : Prop where
  breg : t.breg = s.breg
  busy : t.status.busy = s.status.busy
  cur : t.cur = s.cur
  a0l : t.a0l = s.a0l
  a1l : t.a1l = s.a1l
  cmdcnt : t.cmdcnt = s.cmdcnt

/-- A step by what it does to these: a completion, a soft reset, the release of RST, a word written to CMD
(refused under OVR or not), or nothing. -/
inductive DatapathStep (s : State) : State → Prop
  | completion (o : CmdOutcome) (is : List Input) (busy : s.status.busy = true) :
      DatapathStep s (complete o { s with inputs := is })
  | ctrlReset (d : Word) (is : List Input) (write : NextWrites s 0x0C d) (srst : d.getLsbD 1 = true) :
      DatapathStep s (answer .ack (softReset { s with inputs := is }))
  | release (draw : List (Nat × BitVec 8)) (is : List Input) (rst : s.rst = true)
      (next : s.inputs = .rstRelease draw :: is) :
      DatapathStep s (hardReset draw { s with inputs := is })
  | command (d : Word) (is : List Input) :
      DatapathStep s (answer .ack (acceptCommand d { s with inputs := is }))
  | quiet {t : State} (same : Undisturbed s t) : DatapathStep s t

theorem datapathStep_busAccess {s : State} {a : Access} {is : List Input}
    (hi : s.inputs = .bus a :: is) : DatapathStep s (busAccess a { s with inputs := is }) := by
  obtain ⟨r, e⟩ | ⟨off, d, ha, -, -, e⟩ | ⟨k, -, -, -, -, e⟩ := busAccess_cases a { s with inputs := is }
  · exact .quiet (e ▸ ⟨rfl, rfl, rfl, rfl, rfl, rfl⟩)
  · rw [e]
    obtain ⟨hoff, hd, e⟩ | ⟨-, -, e⟩ | ⟨-, e⟩ | ⟨-, e⟩ | ⟨-, e⟩ | ⟨-, e⟩ | e :=
      regWrite_cases d off { s with inputs := is } <;> rw [e]
    · exact .ctrlReset d is ⟨is, hoff ▸ ha ▸ hi⟩ hd
    · exact .quiet ⟨rfl, rfl, rfl, rfl, rfl, rfl⟩
    · exact .quiet ⟨rfl, rfl, rfl, rfl, rfl, rfl⟩
    · exact .command d is
    · exact .quiet ⟨rfl, rfl, rfl, rfl, rfl, rfl⟩
    · exact .quiet ⟨rfl, rfl, rfl, rfl, rfl, rfl⟩
    · exact .quiet ⟨rfl, rfl, rfl, rfl, rfl, rfl⟩
  · exact .quiet (e ▸ ⟨rfl, rfl, rfl, rfl, rfl, rfl⟩)

theorem datapathStep_of_step {s t : State} (h : step s = .next t) : DatapathStep s t := by
  obtain ⟨o, is, hb, -, rfl, -⟩ | ⟨is, rfl⟩ | ⟨a, is, hi, -, -, rfl⟩ | ⟨is, -, rfl⟩ |
    ⟨draw, is, hi, hr, rfl⟩ := step_cases h
  · exact .completion o is hb
  · exact .quiet ⟨rfl, rfl, rfl, rfl, rfl, rfl⟩
  · exact datapathStep_busAccess hi
  · exact .quiet ⟨rfl, rfl, rfl, rfl, rfl, rfl⟩
  · exact .release draw is hr hi

/-- Settles O42: of the kinds of `DatapathStep`, only the two resets clear a valid bit. -/
theorem onlyResetClearsValidBits : Obligations.OnlyResetClearsValidBits := by
  intro s t r h hs ht
  cases datapathStep_of_step h with
  | completion o is hb =>
    rw [complete_keeps_valid o { s with inputs := is } r hs] at ht
    cases ht
  | ctrlReset d is hw hd => exact .inl ⟨d, hw, hd⟩
  | release draw is hr hi => exact .inr ⟨hr, draw, is, hi⟩
  | command d is =>
    rw [answer_breg, accept_breg, hs] at ht
    cases ht
  | quiet hu =>
    rw [hu.breg, hs] at ht
    cases ht

/-- With a command in flight a write to CMD sets OVR alone (R61). -/
theorem accept_of_busy {s : State} (h : s.status.busy = true) (w : Word) :
    acceptCommand w s = { s with status := { s.status with ovr := true } } := if_pos h

/-- An idle core latches the word and both arguments (R61). -/
theorem accept_of_idle {s : State} (h : s.status.busy = false) (w : Word) :
    acceptCommand w s = { s with
      cur := w, a0l := s.arg0, a1l := s.arg1
      status := { s.status with busy := true, done := false } } :=
  if_neg (by simp [h])

/-- Settles O43: a completion and the resets end the command, and every other step leaves it alone. -/
theorem commandInFlightIsUndisturbed : Obligations.CommandInFlightIsUndisturbed := by
  intro s t h hs ht
  cases datapathStep_of_step h with
  | completion o is _ =>
    rw [complete_busy] at ht
    cases ht
  | ctrlReset d is _ _ =>
    rw [answer_status, softReset_status] at ht
    cases ht
  | release draw is _ _ =>
    rw [hardReset_status] at ht
    cases ht
  | command d is =>
    rw [accept_of_busy (s := { s with inputs := is }) hs]
    exact ⟨rfl, rfl, rfl⟩
  | quiet hu => exact ⟨hu.cur, hu.a0l, hu.a1l⟩

/-- Settles O44: a completion alone counts, a reset puts 0, and every other step keeps CMDCNT. -/
theorem cmdcntCountsCompletions : Obligations.CmdcntCountsCompletions := by
  intro s t h
  cases datapathStep_of_step h with
  | completion o is hb =>
    exact ⟨fun _ _ _ => complete_cmdcnt _ _,
      fun hn => absurd ⟨hb, complete_busy _ _, complete_done _ _⟩ hn⟩
  | ctrlReset d is hw hd =>
    exact ⟨fun _ _ hdone => (by cases hdone), fun _ => .inr ⟨rfl, .inl ⟨d, hw, hd⟩⟩⟩
  | release draw is _ hi =>
    exact ⟨fun _ _ hdone => (by cases hdone), fun _ => .inr ⟨rfl, .inr ⟨draw, is, hi⟩⟩⟩
  | command d is =>
    refine ⟨fun _ hidle _ => ?_, fun _ => .inl (accept_cmdcnt _ d)⟩
    rw [answer_status, accept_busy] at hidle
    cases hidle
  | quiet hu =>
    refine ⟨fun hb hidle _ => ?_, fun _ => .inl hu.cmdcnt⟩
    rw [hu.busy, hb] at hidle
    cases hidle

/-! ### The step that completes a command (R61, R62, R71, R90) -/

theorem coreTurn_of_busy {s : State} (hb : s.status.busy = true) (hr : s.rst = false) :
    coreTurn s = completeCurrent s := if_pos (by simp [hb, hr])

theorem completeCurrent_of_decode {s : State} {i : Instr} (h : decode s.cur = .ok i) :
    completeCurrent s = exec i s := by
  rw [completeCurrent, h]

theorem completeCurrent_of_error {s : State} {c : ErrCode} (h : decode s.cur = .error c) :
    completeCurrent s = .next (complete (.error c) s) := by
  rw [completeCurrent, h]

theorem step_of_no_input {s : State} (h : s.inputs = []) : step s = coreTurn s := by
  rw [step, h]

theorem step_of_core {s : State} {rest : List Input} (h : s.inputs = .core :: rest) :
    step s = coreTurn { s with inputs := rest } := by
  rw [step, h]; rfl

/-- A host access to LMEM that waits makes the completion the next step (R71). -/
theorem step_of_stalled {s : State} {a : Access} {rest : List Input} (h : s.inputs = .bus a :: rest)
    (hr : s.rst = false) (hst : stalled s a = true) : step s = completeCurrent s := by
  simp only [step, h, takeInput, hr, hst, Bool.false_and, Bool.false_eq_true, if_false, if_true]

/-- A word placed by `withFetchWord` is in flight, with the completion as the next event. -/
theorem step_withFetchWord {s : State} {nbits w : Nat} {i : Instr}
    (h : decode (BitVec.ofNat 32 (w % 2 ^ nbits)) = .ok i) :
    step (s.withFetchWord nbits w) = exec i { s with
      cur := BitVec.ofNat 32 (w % 2 ^ nbits), a0l := s.arg0, a1l := s.arg1, rst := false
      status := { s.status with busy := true, done := false } } := by
  rw [step_of_core (rest := s.inputs) rfl, coreTurn_of_busy rfl rfl, completeCurrent_of_decode h]
  rfl

/-- Settles O5: each of the three inputs leads to the completion step, and that runs the decoded command. -/
theorem stepRunsDecodedCommand : Obligations.StepRunsDecodedCommand := by
  refine ⟨fun s i hb hr hd => ⟨fun hi => ?_, fun rest hi => ?_, fun a rest hi hlo hhi hsize => ?_⟩,
    fun s nbits w i hd => step_withFetchWord hd⟩
  · rw [step_of_no_input hi, coreTurn_of_busy hb hr, completeCurrent_of_decode hd]
  · rw [step_of_core hi, coreTurn_of_busy (s := { s with inputs := rest }) hb hr,
      completeCurrent_of_decode (s := { s with inputs := rest }) hd]
  · have hst : stalled s a = true := by
      rw [stalled, hb, (inLmem_iff s a hsize).2 ⟨hlo, hhi⟩]; rfl
    rw [step_of_stalled hi hr hst, completeCurrent_of_decode hd]

/-- The core's turn on a word that does not decode is the failure with decode's error (R90). -/
theorem step_of_decode_error {s : State} {rest : List Input} {c : ErrCode}
    (hb : s.status.busy = true) (hr : s.rst = false) (hi : s.inputs = .core :: rest)
    (h : decode s.cur = .error c) :
    step s = .next (complete (.error c) { s with inputs := rest }) := by
  rw [step_of_core hi, coreTurn_of_busy (s := { s with inputs := rest }) hb hr,
    completeCurrent_of_error (s := { s with inputs := rest }) h]

/-- Settles O6: the step is `takeError` with the code of decode's error, and a failure has no effect. -/
theorem undecodableWordFails : Obligations.UndecodableWordFails := by
  intro s rest hb hr hi
  exact ⟨fun h => ⟨_, step_of_decode_error hb hr hi h, failedWith_complete .illegalEncoding _⟩,
    fun h => ⟨_, step_of_decode_error hb hr hi h, failedWith_complete .illegalOperand _⟩⟩

/-! ### CMP (R47, R103) -/

/-- The writes of a CMP that succeeds: one of LT, EQ and GT, and RESULT (R103). -/
def cmpWrites (c : Ordering) : Writes := { order := some c, result := some (orderWord c) }

theorem exec_cmp_of_operands {sa sb : Src} {s : State} {a b : Nat} (ha : Operand s sa a)
    (hb : Operand s sb b) :
    exec (.cmp sa sb) s = .next (complete (.ok (cmpWrites (compare a b))) s) := by
  show execCmp sa sb s = _
  rw [execCmp, withSrcs_operand ha hb, cmpWrites]

theorem orderWord_compare (a b : Nat) :
    orderWord (compare a b) = if a < b then 0xFFFFFFFF else if a = b then 0x00000000 else 0x00000001 := by
  obtain h | h | h := Nat.lt_trichotomy a b
  · rw [Nat.compare_eq_lt.2 h, if_pos h]; rfl
  · rw [Nat.compare_eq_eq.2 h, if_neg (by omega), if_pos h]; rfl
  · rw [Nat.compare_eq_gt.2 h, if_neg (by omega), if_neg (by omega)]; rfl

/-- Settles O10: the flags and RESULT are those of `compare a b`, and nothing else is written. -/
theorem cmpOrdersItsSources : Obligations.CmpOrdersItsSources := by
  intro sa sb s a b ha hb
  refine ⟨_, exec_cmp_of_operands ha hb, succeeded_complete _ _, sameRegs_complete _ _ rfl,
    fun _ => rfl, complete_ok_z s _, ?_, ?_, ?_, orderWord_compare a b⟩
  · simp [complete_ok_lt, cmpWrites, Nat.compare_eq_lt]
  · simp [complete_ok_eq, cmpWrites]
  · simp [complete_ok_gt, cmpWrites, Nat.compare_eq_gt]

/-! ### The register block written by the host (R48 to R51, R55, R56, R60, R61, R233) -/

/-- A 32-bit host write to the register block is made in one step (R69, R71). -/
theorem step_regWrite {s : State} {off : Nat} {d : Word} {rest : List Input} (hr : s.rst = false)
    (h : off < 0x1000) (h4 : off % 4 = 0)
    (hi : s.inputs = .bus ⟨.write, 4, s.cfg.base + off, d⟩ :: rest) :
    step s = .next (answer .ack (regWrite d off { s with inputs := rest })) := by
  rw [step_register hr h hi, busAccess_regWrite (s := { s with inputs := rest }) h h4]

theorem regWrite_cmd (w : Word) (s : State) : regWrite w 0x14 s = acceptCommand w s := rfl

/-- Settles O32: the write reaches `acceptCommand`, whose two cases are the two clauses. -/
theorem cmdWriteAcceptsOrOverruns : Obligations.CmdWriteAcceptsOrOverruns := by
  intro s w rest hr hi
  rw [step_regWrite hr (by decide) (by decide) hi, regWrite_cmd]
  refine ⟨fun hb => ?_, fun hb => ?_⟩
  · rw [accept_of_idle (s := { s with inputs := rest }) hb]
    rfl
  · rw [accept_of_busy (s := { s with inputs := rest }) hb]
    rfl

/-- A write to CTRL with bit 1 clear writes IE (R55). -/
theorem regWrite_ctrl {d : Word} (h : d.getLsbD 1 = false) (s : State) :
    regWrite d 0x00C s = { s with ie := d.getLsbD 0 } := by
  show writeCtrl d s = _
  rw [writeCtrl, h]
  rfl

/-- A write to STATUS clears DONE and OVR, each by its own bit (R56). -/
theorem regWrite_status (d : Word) (s : State) : regWrite d 0x010 s = { s with
    status := { s.status with
      done := if d.getLsbD 1 = true then false else s.status.done
      ovr := if d.getLsbD 3 = true then false else s.status.ovr } } := by
  show { s with status := s.status.writeOneToClear d } = _
  rw [Status.writeOneToClear]
  cases d.getLsbD 1 <;> cases d.getLsbD 3 <;> simp

theorem regWrite_ignored {off : Nat} (hctrl : off ≠ 0x00C) (hstatus : off ≠ 0x010) (hcmd : off ≠ 0x014)
    (harg0 : off ≠ 0x018) (harg1 : off ≠ 0x01C) (d : Word) (s : State) : regWrite d off s = s := by
  simp only [regWrite, hctrl, hstatus, hcmd, harg0, harg1, if_false]

/-- Settles O34: the write reaches `regWrite`, at each offset of the map. -/
theorem registerWritesFollowTheMap : Obligations.RegisterWritesFollowTheMap := by
  intro s off d rest hr h h4 hi
  rw [step_regWrite hr h h4 hi]
  refine ⟨?_, ?_, ?_, ?_, fun hctrl hstatus hcmd harg0 harg1 => ?_⟩
  · rintro rfl hd
    rw [regWrite_ctrl hd]
    rfl
  · rintro rfl
    rw [regWrite_status]
    rfl
  · rintro rfl
    rfl
  · rintro rfl
    rfl
  · rw [regWrite_ignored hctrl hstatus hcmd harg0 harg1]
    rfl

/-! ### The register block read by the host (R48 to R60, R71, R72) -/

theorem step_regRead {s : State} {off : Nat} {d : Word} {rest : List Input} (hr : s.rst = false)
    (h : off < 0x1000) (h4 : off % 4 = 0)
    (hi : s.inputs = .bus ⟨.read, 4, s.cfg.base + off, d⟩ :: rest) :
    step s = .next { s with inputs := rest, resp := some (.data (regRead s off)) } := by
  rw [step_register hr h hi, busAccess_regRead (s := { s with inputs := rest }) h h4]
  rfl

/-- PARAM0's fields: MAXL, NREG and NCONST (R53). -/
theorem param0_fields {c : Config} (h : c.wf) : (param0 c).toNat % 2 ^ 16 = c.maxl ∧
    (param0 c).toNat / 2 ^ 16 % 2 ^ 8 = 0x10 ∧ (param0 c).toNat / 2 ^ 24 = 0x11 := by
  obtain ⟨-, hmaxl, -⟩ := h
  rw [param0, BitVec.toNat_ofNat]
  omega

theorem zext32_toNat {v : Nat} (h : v < 2 ^ 32) : (zext32 v).toNat = v := by
  rw [zext32, BitVec.toNat_ofNat, Nat.mod_eq_of_lt h]

/-- A binary digit of a word that is a flag's is that flag. -/
theorem getLsbD_of_digit {w : Word} {k : Nat} {b : Bool} (h : w.toNat / 2 ^ k % 2 = b.toNat) :
    w.getLsbD k = b := by
  rw [BitVec.getLsbD, Nat.testBit_eq_decide_div_mod_eq, h]
  cases b <;> rfl

/-- STATUS has BUSY, DONE, ERR, OVR, Z, LT, EQ and GT in bits 0 to 7 and ERRCODE above them (R56). -/
theorem toWord_fields (st : Status) :
    st.toWord.getLsbD 0 = st.busy ∧ st.toWord.getLsbD 1 = st.done ∧ st.toWord.getLsbD 2 = st.err ∧
      st.toWord.getLsbD 3 = st.ovr ∧ st.toWord.getLsbD 4 = st.z ∧ st.toWord.getLsbD 5 = st.lt ∧
      st.toWord.getLsbD 6 = st.eq ∧ st.toWord.getLsbD 7 = st.gt ∧
      st.toWord.toNat / 2 ^ 8 = st.errcode.toNat := by
  have hsum := toWord_toNat st
  have hbusy := st.busy.toNat_le
  have hdone := st.done.toNat_le
  have herr := st.err.toNat_le
  have hovr := st.ovr.toNat_le
  have hz := st.z.toNat_le
  have hlt := st.lt.toNat_le
  have heq := st.eq.toNat_le
  have hgt := st.gt.toNat_le
  refine ⟨getLsbD_of_digit ?_, getLsbD_of_digit ?_, getLsbD_of_digit ?_, getLsbD_of_digit ?_,
    getLsbD_of_digit ?_, getLsbD_of_digit ?_, getLsbD_of_digit ?_, getLsbD_of_digit ?_, ?_⟩ <;> omega

/-- From 0x02C on the register block holds nothing (R60). -/
theorem regRead_reserved (s : State) {off : Nat} (h : 0x02C ≤ off) : regRead s off = 0 := by
  unfold regRead
  repeat rw [if_neg (by omega)]

/-- Settles O33: the answer is `regRead`, at each offset of the map. -/
theorem registerReadsFollowTheMap : Obligations.RegisterReadsFollowTheMap := by
  intro s off d rest hcfg hr h h4 hi
  refine ⟨regRead s off, step_regRead hr h h4 hi, ?_, ?_, ?_, ?_, ?_, ?_, ?_, ?_, ?_, ?_, ?_,
    regRead_reserved s⟩
  · rintro rfl; rfl
  · rintro rfl; exact param0_fields hcfg
  · rintro rfl; exact zext32_toNat (by omega)
  · rintro rfl; show zext32 s.ie.toNat = _; cases s.ie <;> rfl
  · rintro rfl; exact toWord_fields s.status
  all_goals rintro rfl; rfl

end Sys2Proof.Machine

/-! PROOFS. Memory: LOAD, STORE and STOREP on their buffer, and the host's accesses to the window
(spec/20_memory.md R65 to R72; spec/44_serialize.md R150 to R153). -/

namespace Sys2Proof.Machine

/-! ### The buffer check (R70, R150) -/

/-- LOAD, and STORE and STOREP on a readable source, come to the buffer check before anything else. -/
theorem exec_eq_withBuffer {i : Instr} {s : State}
    (h : (∃ rd, i = .load rd) ∨ ∃ sa v, Operand s sa v ∧ (i = .store sa ∨ i = .storep sa)) :
    ∃ k, exec i s = .next (complete (withBuffer s k) s) := by
  obtain ⟨rd, rfl⟩ | ⟨sa, v, hv, rfl | rfl⟩ := h
  · exact ⟨_, rfl⟩
  · show ∃ k, execStore sa s = _
    rw [execStore, withSrc_operand hv]
    exact ⟨_, rfl⟩
  · show ∃ k, execStorep sa s = _
    rw [execStorep, withSrc_operand hv]
    exact ⟨_, rfl⟩

/-- Settles O20: the commands come to `withBuffer`, whose checks are the three clauses in order. -/
theorem badBuffersAreRefused : Obligations.BadBuffersAreRefused := by
  intro i s hi
  obtain ⟨k, hk⟩ := exec_eq_withBuffer hi
  rw [hk]
  refine ⟨fun ho => ?_, fun ho hn => ?_, fun ho hn hfar => ?_⟩
  · rw [withBuffer_misaligned ho]
    exact ⟨_, rfl, failedWith_complete .address s⟩
  · rw [withBuffer_badLength ho hn]
    exact ⟨_, rfl, failedWith_complete .badLength s⟩
  · rw [withBuffer_tooFar ho hn hfar]
    exact ⟨_, rfl, failedWith_complete .address s⟩

/-! ### LOAD (R66, R151, R214) -/

/-- The bytes of v, least significant first, read as v (R66). -/
theorem memRead_of_bytes {m : Memory} {a n v : Nat}
    (h : ∀ i, i < n → m.read (a + i) = BitVec.ofNat 8 (v / 256 ^ i)) (hv : v < 256 ^ n) :
    memRead m a n = v := by
  rw [memRead_eq_of_digits m a n v h, Nat.mod_eq_of_lt hv]

/-- The canonical byte length by the limb count (R15, R68). -/
theorem byteLen_of_limbCount {v k : Nat} (h : LimbCount v k) : byteLen v = 4 * k := by
  rw [byteLen, len_of_limbCount h]

/-- The writes of a LOAD of v that succeeds: the register with its Z, and RESULT (R151). -/
def loadWrites (rd : RegNo) (v : Nat) : Writes :=
  { writeDst rd v with result := some (zext32 (byteLen v)) }

theorem exec_load_of_buffer {rd : RegNo} {s : State} {v : Nat} (hb : BufferOk s)
    (hv : memRead s.lmem (argOffset s) (argLength s) = v) :
    exec (.load rd) s = .next (complete
      (if len v > s.cfg.maxl then .error .capacity else .ok (loadWrites rd v)) s) := by
  show execLoad rd s = _
  rw [execLoad, withBuffer_pass hb, hv, loadWrites]

/-- Settles O17: the value read is v, and it is written or too large by whether its limbs fit. -/
theorem loadReadsLittleEndian : Obligations.LoadReadsLittleEndian := by
  intro rd s v k ho hn hend hbytes hlt hk
  rw [exec_load_of_buffer ⟨ho, hn, hend⟩ (memRead_of_bytes hbytes hlt), fits_iff, not_not]
  refine ⟨fun hfits => ?_, fun hbig => ?_⟩
  · rw [if_neg hfits]
    refine ⟨_, rfl, wroteReg_complete rd v _ s, ?_⟩
    rw [← byteLen_of_limbCount hk]
    rfl
  · rw [if_pos hbig]
    exact ⟨_, rfl, failedWith_complete .capacity s⟩

/-! ### STORE and STOREP (R67, R152, R153, R217) -/

/-- The writes of a STORE or STOREP of v that succeeds: n bytes at offset o, and RESULT (R152, R153). -/
def storeWrites (o n v : Nat) : Writes :=
  { mem := some ⟨o, n, v⟩, result := some (zext32 (byteLen v)) }

section
variable {sa : Src} {s : State} {v : Nat}

theorem exec_store_of_buffer (hv : Operand s sa v) (hb : BufferOk s) :
    exec (.store sa) s = .next (complete
      (if byteLen v > argLength s then .error .bufferTooSmall
       else .ok (storeWrites (argOffset s) (byteLen v) v)) s) := by
  show execStore sa s = _
  rw [execStore, withSrc_operand hv, withBuffer_pass hb, storeWrites]

theorem exec_storep_of_buffer (hv : Operand s sa v) (hb : BufferOk s) :
    exec (.storep sa) s = .next (complete
      (if byteLen v > argLength s then .error .bufferTooSmall
       else .ok (storeWrites (argOffset s) (argLength s) v)) s) := by
  show execStorep sa s = _
  rw [execStorep, withSrc_operand hv, withBuffer_pass hb, storeWrites]

end

section
variable (s : State) (o n v : Nat)

theorem complete_storeWrites_z :
    (complete (.ok (storeWrites o n v)) s).status.z = s.status.z := rfl

theorem complete_storeWrites_sameOrder :
    SameOrder s (complete (.ok (storeWrites o n v)) s) := ⟨rfl, rfl, rfl⟩

theorem complete_storeWrites_result :
    (complete (.ok (storeWrites o n v)) s).result = BitVec.ofNat 32 (byteLen v) := rfl

theorem complete_storeWrites_lmem :
    (complete (.ok (storeWrites o n v)) s).lmem = memWrite s.lmem o n v := rfl

end

/-- Above its canonical length a value's bytes are 0 (R68). -/
theorem byte_above_byteLen {v i : Nat} (h : byteLen v ≤ i) : BitVec.ofNat 8 (v / 256 ^ i) = 0x00 := by
  rw [Nat.div_eq_of_lt (lt_bytes_len v i h)]; rfl

/-- Settles O18: a STORE that has room is MemWrite of the canonical length. -/
theorem storeWritesCanonicalBytes : Obligations.StoreWritesCanonicalBytes := by
  intro sa s v k hm hv hk ho hn hend
  rw [exec_store_of_buffer hv ⟨ho, hn, hend⟩, ← byteLen_of_limbCount hk]
  refine ⟨fun hroom => ?_, fun hsmall => ?_⟩
  · rw [if_neg (Nat.not_lt.2 hroom)]
    refine ⟨_, rfl, succeeded_complete _ s, sameRegs_complete _ s rfl, complete_storeWrites_z ..,
      complete_storeWrites_sameOrder .., complete_storeWrites_result .., ?_⟩
    rw [complete_storeWrites_lmem]
    exact ⟨fun i hi => read_memWrite_inside hm _ _ v hi, fun c hc => read_memWrite_outside _ _ _ v hc⟩
  · rw [if_pos hsmall]
    exact ⟨_, rfl, failedWith_complete .bufferTooSmall s⟩

/-- Settles O19: a STOREP that has room is MemWrite of the whole block, where v's bytes end in zeros. -/
theorem storepWritesPaddedBlock : Obligations.StorepWritesPaddedBlock := by
  intro sa s v k hm hv hk ho hn hend
  rw [exec_storep_of_buffer hv ⟨ho, hn, hend⟩, ← byteLen_of_limbCount hk]
  refine ⟨fun hroom => ?_, fun hsmall => ?_⟩
  · rw [if_neg (Nat.not_lt.2 hroom)]
    refine ⟨_, rfl, succeeded_complete _ s, sameRegs_complete _ s rfl, complete_storeWrites_z ..,
      complete_storeWrites_sameOrder .., complete_storeWrites_result .., ?_⟩
    rw [complete_storeWrites_lmem]
    refine ⟨fun i hi => ?_, fun i hlo hi => ?_, fun c hc => read_memWrite_outside _ _ _ v hc⟩
    · exact read_memWrite_inside hm _ _ v (Nat.lt_of_lt_of_le hi hroom)
    · rw [read_memWrite_inside hm _ _ v hi, byte_above_byteLen hlo]
  · rw [if_pos hsmall]
    exact ⟨_, rfl, failedWith_complete .bufferTooSmall s⟩

/-! ### Which host accesses are performed (R69) -/

section
variable {s : State} {a : Access} {off k : Nat}

theorem kind_eq_fetch (h : ¬(a.kind = .read ∨ a.kind = .write)) : a.kind = .fetch := by
  cases hk : a.kind with
  | read => exact absurd (.inl hk) h
  | write => exact absurd (.inr hk) h
  | fetch => rfl

theorem lmemWidth_iff (n : Nat) : lmemWidth n = true ↔ n = 1 ∨ n = 2 ∨ n = 4 := by
  simp [lmemWidth, or_assoc]

/-- In the register block R69 asks for an aligned 32-bit read or write. -/
theorem permitted_register (h : off < 0x1000) : permitted s.cfg a off ↔
    (a.kind = .read ∨ a.kind = .write) ∧ a.bytes = 4 ∧ off % 4 = 0 := by
  rw [permitted]
  exact and_congr_right fun _ => by omega

/-- In LMEM R69 asks for what `lmemAccess` checks: with LMEM_BYTES a multiple of 4, an aligned access
that begins in the array ends in it. -/
theorem permitted_lmem (hcfg : s.cfg.wf) (h : k < s.cfg.lmemBytes) : permitted s.cfg a (0x1000 + k) ↔
    (a.kind = .read ∨ a.kind = .write) ∧
      lmemWidth a.bytes = true ∧ k % a.bytes = 0 ∧ k + a.bytes ≤ s.cfg.lmemBytes := by
  obtain ⟨-, -, hmul, -, -, -⟩ := hcfg
  rw [permitted, lmemWidth_iff]
  refine and_congr_right fun _ => ⟨?_, ?_⟩
  · rintro (⟨hlt, -⟩ | ⟨-, -, hb | hb | hb, halign⟩)
    · omega
    all_goals rw [hb] at halign ⊢; omega
  · rintro ⟨hb | hb | hb, halign, hend⟩ <;> rw [hb] at halign hend ⊢ <;> omega

theorem not_permitted_beyond (h : 0x1000 + s.cfg.lmemBytes ≤ off) : ¬permitted s.cfg a off := by
  rintro ⟨-, ⟨hlt, -⟩ | ⟨-, hlt, -⟩⟩ <;> omega

/-! Which region an access reaches (R48). -/

theorem lmemBytes_le {c : Config} (h : c.wf) : c.lmemBytes ≤ 2 ^ 24 := by
  obtain ⟨-, -, -, -, hsize, -⟩ := h
  exact hsize

/-- The rows of R69: the register block, LMEM, or past it. -/
theorem region_cases (c : Config) (off : Nat) :
    off < 0x1000 ∨ (∃ k, k < c.lmemBytes ∧ off = 0x1000 + k) ∨ 0x1000 + c.lmemBytes ≤ off := by
  by_cases hr : off < 0x1000
  · exact .inl hr
  · by_cases hl : off < 0x1000 + c.lmemBytes
    · exact .inr (.inl ⟨off - 0x1000, by omega, by omega⟩)
    · exact .inr (.inr (by omega))

theorem busAccess_register (ha : a.addr = s.cfg.base + off) (h : off < 0x1000) :
    busAccess a s = regAccess a off s := by
  have hw : inWindow s a = true := (inWindow_iff s a).2 (by omega)
  rw [busAccess, if_pos hw, ha, Nat.add_sub_cancel_left, if_pos h]

theorem busAccess_lmem (hcfg : s.cfg.wf) (ha : a.addr = s.cfg.base + 0x1000 + k)
    (h : k < s.cfg.lmemBytes) : busAccess a s = lmemAccess a k s := by
  have hsize : s.cfg.lmemBytes ≤ 2 ^ 24 := lmemBytes_le hcfg
  have hw : inWindow s a = true := (inWindow_iff s a).2 (by omega)
  have hl : inLmem s a = true := (inLmem_iff s a hsize).2 (by omega)
  have hk : a.addr - s.cfg.base - lmemOffset = k := by rw [ha]; simp only [lmemOffset]; omega
  rw [busAccess, if_pos hw, if_neg (by simp only [lmemOffset]; omega), if_pos hl, hk]

theorem busAccess_beyond (hcfg : s.cfg.wf) (ha : a.addr = s.cfg.base + off)
    (hlo : 0x1000 + s.cfg.lmemBytes ≤ off) (hhi : off < 2 ^ 25) :
    busAccess a s = answer .busError s := by
  have hsize : s.cfg.lmemBytes ≤ 2 ^ 24 := lmemBytes_le hcfg
  have hw : inWindow s a = true := (inWindow_iff s a).2 (by omega)
  have hl : ¬inLmem s a = true := fun h => by have := (inLmem_iff s a hsize).1 h; omega
  rw [busAccess, if_pos hw, if_neg (by simp only [lmemOffset]; omega), if_neg hl]

/-! What a permitted access does in its region, and what any other does there (R68, R69). -/

theorem regAccess_read (h : off < 0x1000) (hp : permitted s.cfg a off) (hk : a.kind = .read) :
    regAccess a off s = answer (.data (regRead s off)) s := by
  rw [regAccess, if_pos ((permitted_register h).1 hp).2, hk]

theorem regAccess_write (h : off < 0x1000) (hp : permitted s.cfg a off) (hk : a.kind = .write) :
    regAccess a off s = answer .ack (regWrite a.data off s) := by
  rw [regAccess, if_pos ((permitted_register h).1 hp).2, hk]

theorem regAccess_refused (h : off < 0x1000) (hp : ¬permitted s.cfg a off) :
    regAccess a off s = answer .busError s := by
  rw [permitted_register h] at hp
  rw [regAccess]
  split
  · next hcheck => rw [kind_eq_fetch fun hkind => hp ⟨hkind, hcheck⟩]
  · rfl

theorem lmemAccess_read (hcfg : s.cfg.wf) (h : k < s.cfg.lmemBytes)
    (hp : permitted s.cfg a (0x1000 + k)) (hk : a.kind = .read) :
    lmemAccess a k s = answer (.data (BitVec.ofNat 32 (memRead s.lmem k a.bytes))) s := by
  rw [lmemAccess, if_pos ((permitted_lmem hcfg h).1 hp).2, hk]

theorem lmemAccess_write (hcfg : s.cfg.wf) (h : k < s.cfg.lmemBytes)
    (hp : permitted s.cfg a (0x1000 + k)) (hk : a.kind = .write) :
    lmemAccess a k s = answer .ack { s with lmem := memWrite s.lmem k a.bytes a.data.toNat } := by
  rw [lmemAccess, if_pos ((permitted_lmem hcfg h).1 hp).2, hk]

theorem lmemAccess_refused (hcfg : s.cfg.wf) (h : k < s.cfg.lmemBytes)
    (hp : ¬permitted s.cfg a (0x1000 + k)) : lmemAccess a k s = answer .busError s := by
  rw [permitted_lmem hcfg h] at hp
  rw [lmemAccess]
  split
  · next hcheck => rw [kind_eq_fetch fun hkind => hp ⟨hkind, hcheck⟩]
  · rfl

/-- An access that R69 does not permit gets the bus error response and does nothing. -/
theorem busAccess_refused (hcfg : s.cfg.wf) (ha : a.addr = s.cfg.base + off) (hoff : off < 2 ^ 25)
    (hp : ¬permitted s.cfg a off) : busAccess a s = answer .busError s := by
  obtain hr | ⟨k, hl, rfl⟩ | hbeyond := region_cases s.cfg off
  · rw [busAccess_register ha hr, regAccess_refused hr hp]
  · rw [busAccess_lmem hcfg (by omega) hl, lmemAccess_refused hcfg hl hp]
  · exact busAccess_beyond hcfg ha hbeyond hoff

/-- A permitted access is answered, with its data or an acknowledgement (R69). -/
theorem busAccess_permitted (hcfg : s.cfg.wf) (ha : a.addr = s.cfg.base + off)
    (hp : permitted s.cfg a off) : ∃ r u, busAccess a s = answer r u ∧ r ≠ .busError := by
  obtain hr | ⟨k, hl, rfl⟩ | hbeyond := region_cases s.cfg off
  · rw [busAccess_register ha hr]
    obtain hk | hk := hp.1
    · exact ⟨_, _, regAccess_read hr hp hk, Response.noConfusion⟩
    · exact ⟨_, _, regAccess_write hr hp hk, Response.noConfusion⟩
  · rw [busAccess_lmem hcfg (by omega) hl]
    obtain hk | hk := hp.1
    · exact ⟨_, _, lmemAccess_read hcfg hl hp hk, Response.noConfusion⟩
    · exact ⟨_, _, lmemAccess_write hcfg hl hp hk, Response.noConfusion⟩
  · exact absurd hp (not_permitted_beyond hbeyond)

/-- Every access to the window is answered (R69). -/
theorem busAccess_answers (hcfg : s.cfg.wf) (ha : a.addr = s.cfg.base + off) (hoff : off < 2 ^ 25) :
    ∃ r, (busAccess a s).resp = some r := by
  by_cases hp : permitted s.cfg a off
  · obtain ⟨r, u, h, -⟩ := busAccess_permitted hcfg ha hp
    exact ⟨r, by rw [h, answer_resp]⟩
  · exact ⟨.busError, by rw [busAccess_refused hcfg ha hoff hp, answer_resp]⟩

end

/-- Settles O35: the step makes the access, which R69's table refuses or answers. -/
theorem unpermittedAccessHasNoEffect : Obligations.UnpermittedAccessHasNoEffect := by
  intro s a off rest hcfg hturn ha hoff
  rw [step_hostTurn hturn]
  refine ⟨fun hp => ?_, fun hp => ?_⟩
  · rw [busAccess_refused (s := { s with inputs := rest }) hcfg ha hoff hp]
    rfl
  · obtain ⟨r, u, h, hr⟩ := busAccess_permitted (s := { s with inputs := rest }) hcfg ha hp
    exact ⟨_, rfl, by rw [h, answer_resp]; exact fun e => hr (Option.some.inj e)⟩

/-! ### Host reads (R72) -/

/-- Settles O36: of all that an access can do (`busAccess_cases`), a read can only be answered. -/
theorem readsHaveNoSideEffects : Obligations.ReadsHaveNoSideEffects := by
  intro s t a rest hturn hread hstep
  rw [step_hostTurn hturn] at hstep
  injection hstep with ht
  obtain ⟨r, h⟩ | ⟨off, d, rfl, -⟩ | ⟨k, hwrite, -⟩ := busAccess_cases a { s with inputs := rest }
  · rw [← ht, h]
  · cases hread
  · cases hread.symm.trans hwrite

/-! ### Host accesses to LMEM (R65, R68, R71) -/

/-- A permitted access at or above LMEM's offset is in LMEM. -/
theorem lt_lmemBytes_of_permitted {c : Config} {a : Access} {k : Nat}
    (h : permitted c a (0x1000 + k)) : k < c.lmemBytes := by
  obtain ⟨-, ⟨hlt, -⟩ | ⟨-, hlt, -⟩⟩ := h <;> omega

/-- What a narrow or full read of LMEM answers is a 32-bit word (R68, R69). -/
theorem memRead_lt_word {n : Nat} (m : Memory) (k : Nat) (h : lmemWidth n = true) :
    memRead m k n < 2 ^ 32 := by
  have hlt := memRead_lt m k n
  have hn : n ≤ 4 := by obtain rfl | rfl | rfl := (lmemWidth_iff n).1 h <;> decide
  exact Nat.lt_of_lt_of_le hlt (Nat.pow_le_pow_right (by decide) hn)

/-- Settles O37: the read is MemRead and the write MemWrite at the addressed offset. -/
theorem hostAccessToLmemIsLittleEndian : Obligations.HostAccessToLmemIsLittleEndian := by
  intro s a k rest hcfg hm hturn ha hp
  have hk := lt_lmemBytes_of_permitted hp
  rw [step_hostTurn hturn, busAccess_lmem (s := { s with inputs := rest }) hcfg ha hk]
  refine ⟨fun hread => ?_, fun hwrite => ?_⟩
  · rw [lmemAccess_read (s := { s with inputs := rest }) hcfg hk hp hread]
    obtain ⟨-, hwidth, -⟩ := (permitted_lmem hcfg hk).1 hp
    have hv : (BitVec.ofNat 32 (memRead s.lmem k a.bytes)).toNat = memRead s.lmem k a.bytes :=
      zext32_toNat (memRead_lt_word s.lmem k hwidth)
    refine ⟨_, rfl, fun j hj => ?_, ?_⟩
    · rw [hv, memRead_digit s.lmem k a.bytes hj]
    · rw [hv]
      exact memRead_lt s.lmem k a.bytes
  · rw [lmemAccess_write (s := { s with inputs := rest }) hcfg hk hp hwrite]
    exact ⟨_, rfl, fun j hj => read_memWrite_inside hm k _ _ hj,
      fun c hc => read_memWrite_outside s.lmem k _ _ hc⟩

/-- Settles O38: a stalled access is the completion, which ends BUSY and keeps the inputs; a register is
never in the region that waits. -/
theorem lmemAccessWaitsForCompletion : Obligations.LmemAccessWaitsForCompletion := by
  intro s a rest hcfg hr hb hi
  refine ⟨fun hlo hhi => ?_, fun hlo hhi => ?_⟩
  · have hst : stalled s a = true := by
      rw [stalled, hb, (inLmem_iff s a (lmemBytes_le hcfg)).2 ⟨hlo, hhi⟩]; rfl
    obtain ⟨o, ho, -⟩ := completeCurrent_next s
    rw [step_of_stalled hi hr hst, coreTurn_of_busy hb hr]
    have hinputs : (complete o s).inputs = .bus a :: rest := (complete_inputs s o).trans hi
    have hidle := complete_busy s o
    exact ⟨_, ho, rfl, hinputs, hidle, hinputs, (complete_rst s o).trans hr, .inl hidle⟩
  · have hturn : HostTurn s a rest := ⟨hi, hr, .inr (by omega)⟩
    obtain ⟨off, ha⟩ := Nat.exists_eq_add_of_le hlo
    obtain ⟨r, hresp⟩ := busAccess_answers (s := { s with inputs := rest }) hcfg ha (by omega)
    exact ⟨_, r, step_hostTurn hturn, busAccess_inputs _ a, hresp⟩

end Sys2Proof.Machine

/-! PROOFS. The command word: decode and encode agree, and the opcode table says which words fail to decode
and how (spec/30_encoding.md); and MOVI, which writes the latched ARG0 (spec/40_construct_compare.md R101). -/

namespace Sys2Proof

/-! ### The three answers of decode (R90) -/

section
variable {w : Word}

theorem decode_of_none (h : decodeForm w = none) : decode w = .error .illegalEncoding := by
  rw [decode, h]

theorem decode_of_some {i : Instr} (h : decodeForm w = some i) :
    decode w = if i.wf then .ok i else .error .illegalOperand := by
  rw [decode, h]

theorem decode_eq_ok_iff {i : Instr} :
    decode w = .ok i ↔ decodeForm w = some i ∧ i.wf = true := by
  cases h : decodeForm w with
  | none => simp [decode_of_none h]
  | some j =>
    rw [decode_of_some h, Option.some.injEq]
    constructor
    · intro hok
      split at hok <;> cases hok
      exact ⟨rfl, ‹_›⟩
    · rintro ⟨rfl, hwf⟩
      exact if_pos hwf

theorem decode_eq_illegalEncoding_iff : decode w = .error .illegalEncoding ↔ decodeForm w = none := by
  cases h : decodeForm w with
  | none => simp [decode_of_none h]
  | some j => rw [decode_of_some h]; split <;> simp

theorem decode_eq_illegalOperand_iff :
    decode w = .error .illegalOperand ↔ ∃ i, decodeForm w = some i ∧ i.wf = false := by
  cases h : decodeForm w with
  | none => simp [decode_of_none h]
  | some j => simp [decode_of_some h]

end

/-! ### Decode and encode -/

/-- A legal command's word decodes to it (R81, R90). -/
theorem decode_encode {i : Instr} (h : i.wf = true) : decode (encode i) = .ok i :=
  decode_eq_ok_iff.2 ⟨decodeForm_encode i, h⟩

theorem decode_of_encode_eq {w : Word} {i : Instr} (hw : encode i = w) (h : i.wf = true) :
    decode w = .ok i := hw ▸ decode_encode h

/-- Settles O1: the encoding half of decode and the encoder undo each other (`decodeForm_encode`,
`encode_decodeForm`), and decode adds the operand checks. -/
theorem decodeAndEncodeAgree : Obligations.DecodeAndEncodeAgree := by
  refine ⟨fun i => decode_encode, fun w i h => ?_⟩
  obtain ⟨hform, hwf⟩ := decode_eq_ok_iff.1 h
  exact ⟨hwf, encode_decodeForm hform⟩

/-- Settles O4: each word is the encoding of its command, which is legal. -/
theorem sampleWordsDecode : Obligations.SampleWordsDecode :=
  ⟨decode_of_encode_eq rfl rfl, decode_of_encode_eq rfl rfl, decode_of_encode_eq rfl rfl,
    decode_of_encode_eq rfl rfl, decode_of_encode_eq rfl rfl, decode_of_encode_eq rfl rfl⟩

/-! ### Words of a row -/

/-- Where two rows' match words differ on a bit of both masks, no word is a word of both. -/
theorem not_matchesWord_both {r r' : OpcodeRow} (h : r.pattern &&& r'.mask ≠ r'.pattern &&& r.mask)
    (w : Word) : ¬(r.matchesWord w = true ∧ r'.matchesWord w = true) := by
  simp only [OpcodeRow.matchesWord, beq_iff_eq]
  rintro ⟨hr, hr'⟩
  apply h
  rw [← hr, ← hr']
  ac_rfl

/-- Settles O3: any two rows differ on a bit that both masks have. -/
theorem opcodeRowsAreDisjoint : Obligations.OpcodeRowsAreDisjoint :=
  List.Pairwise.imp (R := fun r r' => r.pattern &&& r'.mask ≠ r'.pattern &&& r.mask)
    not_matchesWord_both (by decide)

/-- Every row's mask has the opcode field and whole operand fields, each known by its lowest bit, and its
match word is the opcode alone. -/
theorem mask_pattern_of_mem {r : OpcodeRow} (h : r ∈ opcodeRows) :
    r.mask = fieldMask true 26 6 + (fieldMask (r.mask.getLsbD 22) 22 4 +
      (fieldMask (r.mask.getLsbD 18) 18 4 + (fieldMask (r.mask.getLsbD 12) 12 6 +
      (fieldMask (r.mask.getLsbD 6) 6 6 + fieldMask (r.mask.getLsbD 0) 0 6)))) ∧
    r.pattern = BitVec.ofNat 32 (r.pattern.toNat / 2 ^ 26 * 2 ^ 26) := by
  revert r; decide

/-- `matchesWord_iff` with its flags and its opcode read off the row. -/
theorem matchesWord_iff_of_mem {r : OpcodeRow} (h : r ∈ opcodeRows) (w : Word) :
    r.matchesWord w = true ↔ opField w = r.pattern.toNat / 2 ^ 26 ∧
      (r.mask.getLsbD 22 = true → regField w 22 = 0) ∧
      (r.mask.getLsbD 18 = true → regField w 18 = 0) ∧
      (r.mask.getLsbD 12 = true → field w 12 6 = 0) ∧
      (r.mask.getLsbD 6 = true → field w 6 6 = 0) ∧
      (r.mask.getLsbD 0 = true → field w 0 6 = 0) := by
  obtain ⟨hm, hp⟩ := mask_pattern_of_mem h
  exact matchesWord_iff w _ _ _ _ _ _ (by omega) hm hp

/-- A word of a row is read as a command whose sources and destinations are the fields the row has. -/
theorem decodeForm_of_matchesWord {r : OpcodeRow} {w : Word} (hr : r ∈ opcodeRows)
    (h : r.matchesWord w = true) :
    ∃ i, decodeForm w = some i ∧ i.srcs = r.srcs.map (srcField w) ∧
      i.dstsDiffer = !(r.hasRe && regField w 22 == regField w 18) := by
  obtain ⟨hop, hzero⟩ := (matchesWord_iff_of_mem hr w).1 h
  rw [decodeForm, hop]
  clear h hop
  simp only [opcodeRows, List.mem_cons, List.not_mem_nil, or_false] at hr
  obtain rfl | rfl | rfl | rfl | rfl | rfl | rfl | rfl | rfl | rfl | rfl | rfl | rfl | rfl | rfl | rfl | rfl |
    rfl | rfl := hr
  all_goals
    refine ⟨_, if_pos ?_, rfl, rfl⟩
    simpa using hzero

/-- The whole family EncodesInItsRow. -/
theorem encodesInItsRow (i : Instr) : Laws.EncodesInItsRow.Statement i :=
  match i with
  | .nop => Laws.EncodesInItsRow.nop
  | .movi _ => Laws.EncodesInItsRow.movi _
  | .mov _ _ => Laws.EncodesInItsRow.mov _ _
  | .cmp _ _ => Laws.EncodesInItsRow.cmp _ _
  | .tstz _ => Laws.EncodesInItsRow.tstz _
  | .len _ => Laws.EncodesInItsRow.len _
  | .add _ _ _ => Laws.EncodesInItsRow.add _ _ _
  | .sub _ _ _ => Laws.EncodesInItsRow.sub _ _ _
  | .mul _ _ _ => Laws.EncodesInItsRow.mul _ _ _
  | .div _ _ _ _ => Laws.EncodesInItsRow.div _ _ _ _
  | .quo _ _ _ => Laws.EncodesInItsRow.quo _ _ _
  | .mod _ _ _ => Laws.EncodesInItsRow.mod _ _ _
  | .load _ => Laws.EncodesInItsRow.load _
  | .store _ => Laws.EncodesInItsRow.store _
  | .storep _ => Laws.EncodesInItsRow.storep _
  | .gcd _ _ _ => Laws.EncodesInItsRow.gcd _ _ _
  | .modinv _ _ _ => Laws.EncodesInItsRow.modinv _ _ _
  | .modpow _ _ _ _ => Laws.EncodesInItsRow.modpow _ _ _ _
  | .jacobi _ _ _ => Laws.EncodesInItsRow.jacobi _ _ _

theorem exists_row_of_decodeForm {w : Word} {i : Instr} (h : decodeForm w = some i) :
    ∃ r ∈ opcodeRows, r.matchesWord w = true := by
  obtain ⟨r, hr, hmatch⟩ := encodesInItsRow i
  exact ⟨r, List.mem_of_getElem? hr, encode_decodeForm h ▸ hmatch⟩

/-! ### The two decode errors (R86, R89, R90) -/

theorem decodeForm_eq_none_iff {w : Word} :
    decodeForm w = none ↔ ∀ r ∈ opcodeRows, r.matchesWord w = false := by
  refine ⟨fun hnone r hr => ?_, fun hno => ?_⟩
  · by_contra hmatch
    obtain ⟨i, hi, -⟩ := decodeForm_of_matchesWord hr (Bool.eq_true_of_not_eq_false hmatch)
    cases hnone.symm.trans hi
  · by_contra hsome
    obtain ⟨i, hi⟩ := Option.ne_none_iff_exists'.1 hsome
    obtain ⟨r, hr, hmatch⟩ := exists_row_of_decodeForm hi
    cases (hno r hr).symm.trans hmatch

theorem Instr.wf_eq_false_iff {i : Instr} :
    i.wf = false ↔ (∃ x ∈ i.srcs, x.legal = false) ∨ i.dstsDiffer = false := by
  rw [Instr.wf, Bool.and_eq_false_iff, List.all_eq_false]
  simp

/-- Among the words of one row, the row's own source fields and its re decide ILLEGAL_OPERAND (R89). -/
theorem decode_eq_illegalOperand_iff_of_matchesWord {r : OpcodeRow} {w : Word} (hr : r ∈ opcodeRows)
    (h : r.matchesWord w = true) : decode w = .error .illegalOperand ↔
      (∃ lo ∈ r.srcs, 0x20 < field w lo 6) ∨ (r.hasRe = true ∧ field w 22 4 = field w 18 4) := by
  obtain ⟨i, hi, hsrcs, hdsts⟩ := decodeForm_of_matchesWord hr h
  have hwf : decode w = .error .illegalOperand ↔ i.wf = false := by simp [decode_of_some hi]
  rw [hwf, Instr.wf_eq_false_iff, hsrcs, hdsts]
  simp [legal_srcField, regField_eq_iff]

/-- Settles O2: a word has an encoding exactly when it is a word of a row, and the row's data say which of
its operand fields are checked. -/
theorem decodeErrorsFollowOpcodeTable : Obligations.DecodeErrorsFollowOpcodeTable := by
  refine fun w => ⟨decode_eq_illegalEncoding_iff.trans decodeForm_eq_none_iff, fun h => ?_, ?_⟩
  · obtain ⟨i, hi, -⟩ := decode_eq_illegalOperand_iff.1 h
    obtain ⟨r, hr, hmatch⟩ := exists_row_of_decodeForm hi
    exact ⟨r, hr, hmatch, (decode_eq_illegalOperand_iff_of_matchesWord hr hmatch).1 h⟩
  · rintro ⟨r, hr, hmatch, hbad⟩
    exact (decode_eq_illegalOperand_iff_of_matchesWord hr hmatch).2 hbad

end Sys2Proof

namespace Sys2Proof.Machine

/-! ### MOVI (R87, R101) -/

theorem exec_movi (rd : RegNo) (s : State) :
    exec (.movi rd) s = .next (complete (.ok (writeDst rd s.a0l.toNat)) s) := rfl

/-- Settles O8: the completion writes the latched ARG0 and its Z flag to rd alone. -/
theorem moviWritesLatchedArg : Obligations.MoviWritesLatchedArg :=
  fun rd s => ⟨_, exec_movi rd s, wroteReg_complete_dst rd s.a0l.toNat s, rfl⟩

end Sys2Proof.Machine

/-! PROOFS. NOP, MOV and TSTZ: each command's completion on readable sources, and what that completion
writes and leaves alone (spec/40_construct_compare.md R100, R102, R104). -/

namespace Sys2Proof.Machine

/-! ### NOP (R62, R100) -/

theorem exec_nop (s : State) : exec .nop s = .next (complete (.ok {}) s) := rfl

/-- Settles O7: a successful completion with no writes. -/
theorem nopOnlyCompletes : Obligations.NopOnlyCompletes :=
  fun s => ⟨_, exec_nop s, succeeded_complete {} s, sameRegs_complete {} s rfl, fun _ => rfl, rfl,
    complete_ok_z s {}, complete_ok_lt s {}, complete_ok_eq s {}, complete_ok_gt s {}⟩

/-! ### MOV (R102) -/

theorem exec_mov_of_operand {rd : RegNo} {sa : Src} {s : State} {a : Nat} (ha : Operand s sa a) :
    exec (.mov rd sa) s = .next (complete (.ok (writeDst rd a)) s) := by
  show execMov rd sa s = _
  rw [execMov, withSrc_operand ha]

/-- Settles O9: the completion writes the value read and its Z flag to rd alone. -/
theorem movCopiesItsSource : Obligations.MovCopiesItsSource :=
  fun rd _ s a ha => ⟨_, exec_mov_of_operand ha, wroteReg_complete_dst rd a s, rfl⟩

/-! ### TSTZ (R47, R104) -/

/-- The writes of a TSTZ that succeeds: Z, and RESULT from it (R104). -/
def tstzWrites (a : Nat) : Writes := { z := some (zeroFlag a), result := some (if a = 0 then 1 else 0) }

theorem exec_tstz_of_operand {sa : Src} {s : State} {a : Nat} (ha : Operand s sa a) :
    exec (.tstz sa) s = .next (complete (.ok (tstzWrites a)) s) := by
  show execTstz sa s = _
  rw [execTstz, withSrc_operand ha, tstzWrites]

theorem complete_tstzWrites_z (a : Nat) (s : State) :
    (complete (.ok (tstzWrites a)) s).status.z = true ↔ a = 0 := by
  simp [complete_ok_z, tstzWrites, zeroFlag]

/-- Settles O11: the completion writes Z and RESULT from whether the value read is 0, and nothing else. -/
theorem tstzTestsForZero : Obligations.TstzTestsForZero :=
  fun _ s a ha => ⟨_, exec_tstz_of_operand ha, succeeded_complete _ s, sameRegs_complete _ s rfl,
    fun _ => rfl, ⟨rfl, rfl, rfl⟩, complete_tstzWrites_z a s, rfl⟩

end Sys2Proof.Machine

/-! PROOFS. ADD and SUB: the commands on readable sources, and the limb datapaths that compute the exact values
the commands are stated on (spec/41_add_sub.md R120 to R124). -/

namespace Sys2Proof.Machine

/-! ### ADD and SUB on readable sources (R121, R123) -/

section
variable {rd : RegNo} {sa sb : Src} {s : State} {a b : Nat}

theorem exec_add_of_fits (ha : Operand s sa a) (hb : Operand s sb b) (h : Fits s (a + b)) :
    exec (.add rd sa sb) s = .next (complete (.ok (writeDst rd (a + b))) s) := by
  show execAdd rd sa sb s = _
  rw [execAdd, withSrcs_operand ha hb, fitting_of_fits h]

theorem exec_add_of_not_fits (ha : Operand s sa a) (hb : Operand s sb b) (h : ¬Fits s (a + b)) :
    exec (.add rd sa sb) s = .next (complete (.error .capacity) s) := by
  show execAdd rd sa sb s = _
  rw [execAdd, withSrcs_operand ha hb, fitting_of_not_fits h]

theorem exec_sub_of_le (ha : Operand s sa a) (hb : Operand s sb b) (h : b ≤ a) :
    exec (.sub rd sa sb) s = .next (complete (.ok (writeDst rd (a - b))) s) := by
  show execSub rd sa sb s = _
  rw [execSub, withSrcs_operand ha hb, if_neg (Nat.not_lt.2 h)]

theorem exec_sub_of_lt (ha : Operand s sa a) (hb : Operand s sb b) (h : a < b) :
    exec (.sub rd sa sb) s = .next (complete (.error .negative) s) := by
  show execSub rd sa sb s = _
  rw [execSub, withSrcs_operand ha hb, if_pos h]

end

/-- A destination just written can be read as a source, and holds the value written (R17, R42). -/
theorem operand_complete_dst (rd : RegNo) (v : Nat) (s : State) :
    Operand (complete (.ok (writeDst rd v)) s) (.reg rd) v := by
  have h := (wroteReg_complete_dst rd v s).value
  exact ⟨congrArg BReg.valid h, congrArg BReg.value h⟩

/-- Settles O13: the two outcomes of `fitting`, by whether the sum fits. -/
theorem addIsExactOrRefused : Obligations.AddIsExactOrRefused := fun rd _ _ s a b ha hb =>
  ⟨fun h => ⟨_, exec_add_of_fits ha hb h, wroteReg_complete_dst rd (a + b) s, rfl⟩,
    fun h => ⟨_, exec_add_of_not_fits ha hb h, failedWith_complete_code .capacity 0x09 s rfl⟩⟩

/-- Settles O50: the sum left in rd is never below b, so the SUB succeeds and writes a + b - b. -/
theorem addThenSubGivesBack : Obligations.AddThenSubGivesBack := by
  intro rd rd' sa sb s a b ha hb
  refine ⟨fun hlen => ?_, ?_⟩
  · have hfits : Fits s (a + b) := (len_le_iff _ _).1 hlen
    refine ⟨_, exec_add_of_fits ha hb hfits, ?_, fun sb' hb' => ?_⟩
    · rw [Nat.add_comm a b] at hfits ⊢
      exact exec_add_of_fits hb ha hfits
    · have hsub := exec_sub_of_le (rd := rd') (operand_complete_dst rd (a + b) s) hb'
        (Nat.le_add_left b a)
      rw [Nat.add_sub_cancel] at hsub
      exact ⟨_, hsub, rfl, (wroteReg_complete_dst rd' a _).value⟩
  · obtain h | h := Nat.lt_or_ge a b
    · exact ⟨_, exec_sub_of_lt ha hb h, by simpa using h⟩
    · exact ⟨_, exec_sub_of_le ha hb h, by simpa using h⟩

/-! ### Limb sequences (R7, R15) -/

theorem limb_lt (v i : Nat) : limb v i < limbBase := Nat.mod_lt _ (by decide)

/-- `len_le_iff` in powers of the limb base. -/
theorem len_le_iff_lt_pow {v n : Nat} : len v ≤ n ↔ v < limbBase ^ n := by
  rw [len_le_iff, pow_mul]

theorem lt_len_iff_pow_le {v n : Nat} : n < len v ↔ limbBase ^ n ≤ v := by
  rw [lt_len_iff, pow_mul]

/-- The n + 1 limbs of v from limb i on are limb i and the n limbs after it. -/
theorem limbs_from_succ (v i n : Nat) : v / limbBase ^ i % limbBase ^ (n + 1) =
    limb v i + limbBase * (v / limbBase ^ (i + 1) % limbBase ^ n) := by
  rw [pow_succ' _ n, Nat.mod_mul, Nat.div_div_eq_div_mul, ← pow_succ, limb_eq]

/-- Nothing is lost of a value of at most n limbs. -/
theorem limbs_from_zero {v n : Nat} (h : len v ≤ n) : v / limbBase ^ 0 % limbBase ^ n = v := by
  rw [pow_zero, Nat.div_one, Nat.mod_eq_of_lt (len_le_iff_lt_pow.1 h)]

theorem len_mono : Monotone len := fun v u h =>
  (len_le_iff v _).2 (Nat.lt_of_le_of_lt h (lt_pow_len u))

theorem limbsVal_eq_ofDigits (ls : List Nat) : limbsVal ls = Nat.ofDigits limbBase ls := by
  induction ls with
  | nil => rfl
  | cons l ls ih => rw [limbsVal, ih, Nat.ofDigits_cons]

theorem limbsVal_append_singleton (ls : List Nat) (c : Nat) :
    limbsVal (ls ++ [c]) = limbsVal ls + limbBase ^ ls.length * c := by
  simp only [limbsVal_eq_ofDigits, Nat.ofDigits_append, Nat.ofDigits_singleton]

theorem limbsVal_lt {ls : List Nat} (h : ∀ l ∈ ls, l < limbBase) :
    limbsVal ls < limbBase ^ ls.length := by
  rw [limbsVal_eq_ofDigits]
  exact Nat.ofDigits_lt_base_pow_length (by decide) h

/-! ### The ripple-carry adder (R120) -/

/-- A step's carry out is a bit: two limbs and a carry bit are below twice the base. -/
theorem carry_le_one {a b c : Nat} (i : Nat) (hc : c ≤ 1) : (limb a i + limb b i + c) / limbBase ≤ 1 := by
  have ha := limb_lt a i
  have hb := limb_lt b i
  exact Nat.le_of_lt_succ (Nat.div_lt_of_lt_mul (by omega))

theorem limbsVal_rippleCarry (a b n i c : Nat) : limbsVal (rippleCarry a b n i c) =
    a / limbBase ^ i % limbBase ^ n + b / limbBase ^ i % limbBase ^ n + c := by
  induction n generalizing i c with
  | zero => simp [rippleCarry, limbsVal, Nat.mod_one]
  | succ n ih =>
    have ht := Nat.mod_add_div (limb a i + limb b i + c) limbBase
    rw [rippleCarry, limbsVal, ih, limbs_from_succ a, limbs_from_succ b]
    linear_combination ht

/-- The loop's output is n limbs and then the final carry, a bit. -/
theorem rippleCarry_eq_append (a b n i : Nat) {c : Nat} (hc : c ≤ 1) :
    ∃ ls c', rippleCarry a b n i c = ls ++ [c'] ∧ ls.length = n ∧ (∀ l ∈ ls, l < limbBase) ∧ c' ≤ 1 := by
  induction n generalizing i c with
  | zero => exact ⟨[], c, rfl, rfl, by simp, hc⟩
  | succ n ih =>
    obtain ⟨ls, c', h, hlen, hls, hc'⟩ := ih (i + 1) (carry_le_one (a := a) (b := b) i hc)
    refine ⟨(limb a i + limb b i + c) % limbBase :: ls, c', by rw [rippleCarry, h]; rfl,
      by rw [List.length_cons, hlen], ?_, hc'⟩
    exact List.forall_mem_cons.2 ⟨Nat.mod_lt _ (by decide), hls⟩

theorem limbsVal_adderLimbs (a b : Nat) : limbsVal (adderLimbs a b) = a + b := by
  rw [adderLimbs, limbsVal_rippleCarry, limbs_from_zero (le_max_left _ _),
    limbs_from_zero (le_max_right _ _), Nat.add_zero]

/-- A value of at least n limbs that is n limbs and a carry bit c has n + c limbs. -/
theorem len_of_carry {x n c : Nat} (hx : x < limbBase ^ n) (hc : c = 0 ∨ c = 1)
    (hn : n ≤ len (x + limbBase ^ n * c)) : len (x + limbBase ^ n * c) = n + c := by
  obtain rfl | rfl := hc
  · rw [Nat.mul_zero, Nat.add_zero] at hn ⊢
    exact Nat.le_antisymm (len_le_iff_lt_pow.2 hx) hn
  · rw [Nat.mul_one]
    have htop : x + limbBase ^ n < limbBase ^ (n + 1) :=
      calc x + limbBase ^ n < limbBase ^ n * 2 := by omega
        _ ≤ limbBase ^ n * limbBase := Nat.mul_le_mul_left _ (by decide)
        _ = limbBase ^ (n + 1) := (pow_succ _ _).symm
    exact Nat.le_antisymm (len_le_iff_lt_pow.2 htop) (lt_len_iff_pow_le.2 (Nat.le_add_left _ _))

/-- Settles O51: the loop keeps the value and its carry is a bit; the last carry decides the length. -/
theorem rippleCarryAdderIsExact : Obligations.RippleCarryAdderIsExact := by
  intro a b
  obtain ⟨ls, c, h, hlen, hls, hc⟩ :=
    rippleCarry_eq_append a b (max (len a) (len b)) 0 (Nat.zero_le 1)
  have hval := limbsVal_adderLimbs a b
  have hbit : c = 0 ∨ c = 1 := by omega
  have hsum : limbsVal ls + limbBase ^ ls.length * c = a + b := by
    rw [← limbsVal_append_singleton, ← h]; exact hval
  have hmax : ls.length ≤ len (a + b) :=
    hlen ▸ max_le (len_mono (Nat.le_add_right a b)) (len_mono (Nat.le_add_left b a))
  refine ⟨hval, ?_, ls, c, h, hlen, hbit, ?_⟩
  · rw [adderLimbs, h]
    exact List.forall_mem_append.2 ⟨hls, List.forall_mem_singleton.2 (by omega)⟩
  · rw [← hsum] at hmax ⊢
    exact len_of_carry (limbsVal_lt hls) hbit hmax

/-! ### The ripple-borrow subtractor (R122) -/

/-- The borrow out of limb i, from the borrow br into it. -/
def borrowOut (a b i br : Nat) : Nat := if limb a i < limb b i + br then 1 else 0

/-- Limb i of the difference, from the borrow br into it. -/
def borrowDigit (a b i br : Nat) : Nat := limb a i + limbBase * borrowOut a b i br - (limb b i + br)

/-- One step of the loop, both branches at once. -/
theorem rippleBorrow_succ (a b n i br : Nat) : rippleBorrow a b (n + 1) i br =
    (borrowDigit a b i br :: (rippleBorrow a b n (i + 1) (borrowOut a b i br)).1,
      (rippleBorrow a b n (i + 1) (borrowOut a b i br)).2) := by
  rw [rippleBorrow, borrowDigit, borrowOut]
  split <;> rfl

theorem borrowOut_le_one (a b i br : Nat) : borrowOut a b i br ≤ 1 := by
  unfold borrowOut; split <;> decide

/-- A step's limb and borrow out account for its limbs and borrow in, and the limb is one. -/
theorem borrowDigit_spec (a b i : Nat) {br : Nat} (hbr : br ≤ 1) :
    borrowDigit a b i br + (limb b i + br) = limb a i + limbBase * borrowOut a b i br ∧
      borrowDigit a b i br < limbBase := by
  have ha := limb_lt a i
  have hb := limb_lt b i
  unfold borrowDigit borrowOut
  split <;> omega

theorem rippleBorrow_length (a b n i br : Nat) : (rippleBorrow a b n i br).1.length = n := by
  induction n generalizing i br with
  | zero => rfl
  | succ n ih => rw [rippleBorrow_succ, List.length_cons, ih]

theorem rippleBorrow_borrow_le_one (a b n i : Nat) {br : Nat} (hbr : br ≤ 1) :
    (rippleBorrow a b n i br).2 ≤ 1 := by
  induction n generalizing i br with
  | zero => exact hbr
  | succ n ih => rw [rippleBorrow_succ]; exact ih _ (borrowOut_le_one a b i br)

theorem rippleBorrow_limbs_lt (a b n i : Nat) {br : Nat} (hbr : br ≤ 1) :
    ∀ l ∈ (rippleBorrow a b n i br).1, l < limbBase := by
  induction n generalizing i br with
  | zero => simp [rippleBorrow]
  | succ n ih =>
    rw [rippleBorrow_succ]
    exact List.forall_mem_cons.2 ⟨(borrowDigit_spec a b i hbr).2, ih _ (borrowOut_le_one a b i br)⟩

theorem limbsVal_rippleBorrow (a b n i : Nat) {br : Nat} (hbr : br ≤ 1) :
    limbsVal (rippleBorrow a b n i br).1 + b / limbBase ^ i % limbBase ^ n + br =
      a / limbBase ^ i % limbBase ^ n + limbBase ^ n * (rippleBorrow a b n i br).2 := by
  induction n generalizing i br with
  | zero => simp [rippleBorrow, limbsVal, Nat.mod_one]
  | succ n ih =>
    obtain ⟨hdigit, -⟩ := borrowDigit_spec a b i hbr
    have hrest := ih (i + 1) (borrowOut_le_one a b i br)
    rw [rippleBorrow_succ, limbsVal, limbs_from_succ a, limbs_from_succ b, pow_succ' limbBase n]
    linear_combination hdigit + limbBase * hrest

theorem limbsVal_subtractorLimbs (a b : Nat) : limbsVal (subtractorLimbs a b).1 + b =
    a + limbBase ^ max (len a) (len b) * (subtractorLimbs a b).2 := by
  have h := limbsVal_rippleBorrow a b (max (len a) (len b)) 0 (Nat.zero_le 1)
  rwa [limbs_from_zero (le_max_left _ _), limbs_from_zero (le_max_right _ _)] at h

/-- Settles O52: the loop's value is below 2^(32·n), so the final borrow bit is set exactly when b > a. -/
theorem rippleBorrowSubtractorIsExact : Obligations.RippleBorrowSubtractorIsExact := by
  intro a b
  have hlimbs : ∀ l ∈ (subtractorLimbs a b).1, l < limbBase :=
    rippleBorrow_limbs_lt a b _ 0 (Nat.zero_le 1)
  have hlen : (subtractorLimbs a b).1.length = max (len a) (len b) := rippleBorrow_length a b _ 0 0
  have hbit : (subtractorLimbs a b).2 ≤ 1 := rippleBorrow_borrow_le_one a b _ 0 (Nat.zero_le 1)
  have hval := limbsVal_subtractorLimbs a b
  have hlt := limbsVal_lt hlimbs
  refine ⟨hlimbs, hlen, ?_⟩
  rw [hlen] at hlt
  rw [pow_mul]
  obtain h0 | h1 : (subtractorLimbs a b).2 = 0 ∨ (subtractorLimbs a b).2 = 1 := by omega
  · rw [h0, Nat.mul_zero, Nat.add_zero] at hval
    exact ⟨fun h => by omega, fun _ => ⟨h0, hval⟩⟩
  · rw [h1, Nat.mul_one] at hval
    exact ⟨fun _ => ⟨h1, hval⟩, fun h => by omega⟩

end Sys2Proof.Machine

/-! PROOFS. MUL: the command on readable sources, and the schoolbook multiplier, whose work array holds the
exact product (spec/42_multiply.md R130, R131). -/

namespace Sys2Proof.Machine

/-! ### MUL on readable sources (R131) -/

section
variable {rd : RegNo} {sa sb : Src} {s : State} {a b : Nat}

theorem exec_mul_of_fits (ha : Operand s sa a) (hb : Operand s sb b) (h : Fits s (a * b)) :
    exec (.mul rd sa sb) s = .next (complete (.ok (writeDst rd (a * b))) s) := by
  show execMul rd sa sb s = _
  rw [execMul, withSrcs_operand ha hb, fitting_of_fits h]

theorem exec_mul_of_not_fits (ha : Operand s sa a) (hb : Operand s sb b) (h : ¬Fits s (a * b)) :
    exec (.mul rd sa sb) s = .next (complete (.error .capacity) s) := by
  show execMul rd sa sb s = _
  rw [execMul, withSrcs_operand ha hb, fitting_of_not_fits h]

end

/-- Settles O15: the two outcomes of `fitting`, by whether the product fits. -/
theorem mulIsExactOrRefused : Obligations.MulIsExactOrRefused := fun rd _ _ s a b ha hb =>
  ⟨fun h => ⟨_, exec_mul_of_fits ha hb h, wroteReg_complete_dst rd (a * b) s, rfl⟩,
    fun h => ⟨_, exec_mul_of_not_fits ha hb h, failedWith_complete_code .capacity 0x09 s rfl⟩⟩

/-! ### The limb sequence of a value (R7, R15) -/

@[simp] theorem length_limbs (v n : Nat) : (limbs v n).length = n := by
  induction n generalizing v with
  | zero => rfl
  | succ n ih => rw [limbs, List.length_cons, ih]

theorem lt_of_mem_limbs (v n : Nat) : ∀ l ∈ limbs v n, l < limbBase := by
  induction n generalizing v with
  | zero => simp [limbs]
  | succ n ih => exact List.forall_mem_cons.2 ⟨Nat.mod_lt _ (by decide), ih _⟩

theorem limbsVal_limbs (v n : Nat) : limbsVal (limbs v n) = v % limbBase ^ n := by
  induction n generalizing v with
  | zero => rw [pow_zero, Nat.mod_one]; rfl
  | succ n ih => rw [limbs, limbsVal, ih, pow_succ', Nat.mod_mul]

theorem limbs_zero_eq_replicate (n : Nat) : limbs 0 n = List.replicate n 0 := by
  induction n with
  | zero => rfl
  | succ n ih => rw [limbs, Nat.zero_mod, Nat.zero_div, ih, List.replicate_succ]

/-- A value split off at its lowest limb: t's lowest limb, then the limbs of the rest plus t's carry. -/
theorem limbs_succ_add_mul (t r n : Nat) :
    limbs (t + limbBase * r) (n + 1) = t % limbBase :: limbs (r + t / limbBase) n := by
  rw [limbs, Nat.add_mul_mod_self_left, Nat.add_mul_div_left _ _ (by decide), Nat.add_comm r]

theorem div_limbBase_lt {v n : Nat} (h : v < limbBase ^ (n + 1)) : v / limbBase < limbBase ^ n :=
  Nat.div_lt_of_lt_mul (by rwa [← pow_succ'])

/-! ### The schoolbook multiplier (R130) -/

/-- A limb times y, plus p and a carry limb c, is below 2^32 · N for y and p below N. With N = 2^32 it is the
64-bit bound of a step's t (R130); with N = 2^(32·n), the bound of a pass. -/
theorem limb_mul_add_add_lt {x y p c N : Nat} (hx : x < limbBase) (hy : y < N) (hp : p < N)
    (hc : c < limbBase) : x * y + p + c < limbBase * N := by
  have hxy : x * y ≤ (limbBase - 1) * (N - 1) :=
    Nat.mul_le_mul (Nat.le_sub_one_of_lt hx) (Nat.le_sub_one_of_lt hy)
  unfold limbBase at *
  omega

/-- A pass over the n limbs of w adds x · b to them, and its last carry replaces the limb after them. -/
theorem mulRow_limbs {x b w c n : Nat} (q : Nat) (ps : List Nat) (hx : x < limbBase)
    (hb : b < limbBase ^ n) (hw : w < limbBase ^ n) (hc : c < limbBase) :
    mulRow x (limbs b n) (limbs w n ++ q :: ps) c = limbs (x * b + w + c) (n + 1) ++ ps := by
  induction n generalizing b w c with
  | zero =>
    obtain rfl : b = 0 := Nat.lt_one_iff.1 hb
    obtain rfl : w = 0 := Nat.lt_one_iff.1 hw
    simp [limbs, mulRow, Nat.mod_eq_of_lt hc]
  | succ n ih =>
    have hlimb (v : Nat) : v % limbBase < limbBase := Nat.mod_lt _ (by decide)
    have hcarry : (x * (b % limbBase) + w % limbBase + c) / limbBase < limbBase :=
      Nat.div_lt_of_lt_mul (limb_mul_add_add_lt hx (hlimb b) (hlimb w) hc)
    have hsum : x * b + w + c = x * (b % limbBase) + w % limbBase + c +
        limbBase * (x * (b / limbBase) + w / limbBase) := by
      linear_combination x * (Nat.mod_add_div b limbBase).symm + (Nat.mod_add_div w limbBase).symm
    rw [hsum, limbs_succ_add_mul, limbs, limbs, List.cons_append, mulRow,
      ih (div_limbBase_lt hb) (div_limbBase_lt hw) hcarry, List.cons_append]

/-- One pass of the outer loop: the first limb it leaves is final. -/
theorem mulRows_cons_of_mulRow {x q : Nat} {xs ys p qs : List Nat} (h : mulRow x ys p 0 = q :: qs) :
    mulRows (x :: xs) ys p = q :: mulRows xs ys qs := by
  rw [mulRows, h]

/-- The passes over the m limbs of a: with w in the array's first n limbs and 0 above, they leave a · b + w. -/
theorem mulRows_limbs {b w n : Nat} (a m : Nat) (ha : a < limbBase ^ m) (hb : b < limbBase ^ n)
    (hw : w < limbBase ^ n) :
    mulRows (limbs a m) (limbs b n) (limbs w n ++ List.replicate m 0) = limbs (a * b + w) (m + n) := by
  induction m generalizing a w with
  | zero =>
    obtain rfl : a = 0 := Nat.lt_one_iff.1 ha
    simp [limbs, mulRows]
  | succ m ih =>
    have hx : a % limbBase < limbBase := Nat.mod_lt _ (by decide)
    have hrow := mulRow_limbs 0 (List.replicate m 0) hx hb hw (c := 0) (by decide)
    have hcarry : (a % limbBase * b + w) / limbBase < limbBase ^ n :=
      Nat.div_lt_of_lt_mul (limb_mul_add_add_lt hx hb hw (c := 0) (by decide))
    have hsum : a * b + w = a % limbBase * b + w + limbBase * (a / limbBase * b) := by
      linear_combination b * (Nat.mod_add_div a limbBase).symm
    rw [Nat.add_zero, limbs, List.cons_append] at hrow
    rw [hsum, Nat.add_right_comm m 1 n, limbs_succ_add_mul, limbs, List.replicate_succ,
      mulRows_cons_of_mulRow hrow, ih _ (div_limbBase_lt ha) hcarry]

theorem lt_limbBase_pow_len (v : Nat) : v < limbBase ^ len v := len_le_iff_lt_pow.1 le_rfl

/-- The work array at the end is the limbs of the product. -/
theorem multiplierLimbs_eq_limbs (a b : Nat) :
    multiplierLimbs a b = limbs (a * b) (len a + len b) := by
  have h := mulRows_limbs (w := 0) a (len a) (lt_limbBase_pow_len a) (lt_limbBase_pow_len b)
    (Nat.pow_pos (by decide))
  rwa [limbs_zero_eq_replicate, List.replicate_append_replicate, Nat.add_comm (len b), Nat.add_zero] at h

/-- Settles O53: the work array is the limbs of the product, which m + n limbs hold. -/
theorem schoolbookMultiplierIsExact : Obligations.SchoolbookMultiplierIsExact := by
  intro a b
  have hlt : a * b < limbBase ^ (len a + len b) := by
    rw [pow_add]
    exact Nat.mul_lt_mul'' (lt_limbBase_pow_len a) (lt_limbBase_pow_len b)
  rw [multiplierLimbs_eq_limbs]
  exact ⟨by rw [limbsVal_limbs, Nat.mod_eq_of_lt hlt], lt_of_mem_limbs _ _, length_limbs _ _⟩

end Sys2Proof.Machine

/-! PROOFS. DIV, QUO and MOD: the commands on readable sources, and the long-division engine, whose two paths
both give the floor quotient and the remainder (spec/43_divide.md R140 to R144). -/

namespace Sys2Proof.Machine

/-! ### The long-division engine (R140) -/

/-- The top limb of a value of n + 1 limbs. -/
theorem limb_top {b n : Nat} (h : len b = n + 1) : limb b n = b / limbBase ^ n := by
  rw [limb_eq, Nat.mod_eq_of_lt]
  exact Nat.div_lt_of_lt_mul (by rw [← pow_succ, ← h]; exact lt_limbBase_pow_len b)

theorem pow_le_of_len {b n : Nat} (h : len b = n + 1) : limbBase ^ n ≤ b :=
  lt_len_iff_pow_le.1 (h ▸ Nat.lt_succ_self n)

/-- Shifting a limb by its leading zero bits keeps it a limb, whatever bits come in below it. -/
theorem succ_mul_two_pow_leadingZeros_le {l : Nat} (hpos : 0 < l) (hlt : l < limbBase) :
    (l + 1) * 2 ^ leadingZeros l ≤ limbBase := by
  have hlog : Nat.log2 l < 32 := (Nat.log2_lt hpos.ne').2 hlt
  calc (l + 1) * 2 ^ leadingZeros l ≤ 2 ^ (Nat.log2 l + 1) * 2 ^ leadingZeros l :=
        Nat.mul_le_mul_right _ Nat.lt_log2_self
    _ = 2 ^ 32 := by rw [leadingZeros, ← pow_add]; congr 1; omega

/-- The normalised divisor keeps the divisor's limb count. -/
theorem normalised_lt {b n : Nat} (h : len b = n + 1) :
    b * 2 ^ leadingZeros (limb b n) < limbBase ^ (n + 1) := by
  have hP : 0 < limbBase ^ n := Nat.pow_pos (by decide)
  have htop : 0 < limb b n := limb_top h ▸ Nat.div_pos (pow_le_of_len h) hP
  have hb : b < (limb b n + 1) * limbBase ^ n := by
    rw [limb_top h, ← Nat.div_lt_iff_lt_mul hP]
    exact Nat.lt_succ_self _
  calc b * 2 ^ leadingZeros (limb b n)
      < (limb b n + 1) * limbBase ^ n * 2 ^ leadingZeros (limb b n) :=
        Nat.mul_lt_mul_of_pos_right hb (Nat.two_pow_pos _)
    _ = (limb b n + 1) * 2 ^ leadingZeros (limb b n) * limbBase ^ n := Nat.mul_right_comm _ _ _
    _ ≤ limbBase * limbBase ^ n :=
        Nat.mul_le_mul_right _ (succ_mul_two_pow_leadingZeros_le htop (limb_lt b n))
    _ = limbBase ^ (n + 1) := (pow_succ' _ _).symm

/-- The dividend is below b · 2^(32·j) for the engine's number j of output positions. -/
theorem lt_mul_pow_of_len {a b n : Nat} (h : len b = n + 1) (hab : b ≤ a) :
    a < b * limbBase ^ (len a - (n + 1) + 1) := by
  have hlen : n + 1 ≤ len a := h ▸ len_mono hab
  calc a < limbBase ^ len a := lt_limbBase_pow_len a
    _ = limbBase ^ n * limbBase ^ (len a - (n + 1) + 1) := by rw [← pow_add]; congr 1; omega
    _ ≤ b * limbBase ^ (len a - (n + 1) + 1) := Nat.mul_le_mul_right _ (pow_le_of_len h)

/-- The fast path is exact for a divisor of one limb. -/
theorem shortDivide_of_len_one (a : Nat) {b : Nat} (h : len b = 1) :
    shortDivide a (limb b 0) (len a) 0 = (a / b, a % b) := by
  have hlimb : limb b 0 = b := by rw [limb_top h, pow_zero, Nat.div_one]
  have hpos : 0 < b := pow_le_of_len h
  rw [hlimb, shortDivide_spec a b (len a) 0 hpos, Nat.zero_mul, Nat.zero_add,
    Nat.mod_eq_of_lt (lt_limbBase_pow_len a)]

/-- The loop on the operands shifted by s gives the same quotient, and the remainder shifted by s. -/
theorem longDivideLoop_of_len {a b n : Nat} (h : len b = n + 1) (hn : 1 ≤ n) (hab : b ≤ a) :
    longDivideLoop (b * 2 ^ leadingZeros (limb b n)) (n + 1) (len a - (n + 1) + 1)
      (a * 2 ^ leadingZeros (limb b n)) = (a / b, a % b * 2 ^ leadingZeros (limb b n)) := by
  have hv := normalised_lt h
  generalize leadingZeros (limb b n) = s at hv ⊢
  have hs : 0 < 2 ^ s := Nat.two_pow_pos s
  have hT : limbBase ^ n ≤ b * 2 ^ s := (pow_le_of_len h).trans (Nat.le_mul_of_pos_right b hs)
  have hu : a * 2 ^ s < b * 2 ^ s * limbBase ^ (len a - (n + 1) + 1) := by
    rw [Nat.mul_right_comm]
    exact Nat.mul_lt_mul_of_pos_right (lt_mul_pow_of_len h hab) hs
  rw [longDivideLoop_spec (Nat.succ_le_succ hn) hv hT _ _ hu, Nat.mul_div_mul_right _ _ hs,
    Nat.mul_mod_mul_right]

/-- Settles O54: a dividend below the divisor is its own remainder; the fast path and the normalised loop are
exact, and the shift is undone on the remainder. -/
theorem longDivisionIsExact : Obligations.LongDivisionIsExact := by
  intro a b hb
  rw [divmod]
  split
  case isTrue hlt => rw [Nat.div_eq_of_lt hlt, Nat.mod_eq_of_lt hlt]
  case isFalse hge =>
    split
    case isTrue hone => exact shortDivide_of_len_one a hone
    case isFalse hmany =>
      obtain ⟨n, hn⟩ : ∃ n, len b = n + 1 :=
        Nat.exists_eq_succ_of_ne_zero ((len_eq_zero_iff b).not.2 hb.ne')
      simp only [hn, Nat.add_sub_cancel]
      rw [longDivideLoop_of_len hn (by omega) (Nat.not_lt.1 hge),
        Nat.mul_div_cancel _ (Nat.two_pow_pos _)]

/-! ### DIV, QUO and MOD on readable sources (R141 to R144, R205) -/

@[simp] theorem quotient_zero (a : Nat) : quotient a 0 = 0 := rfl

theorem quotient_mul_add_remainder (a b : Nat) : quotient a b * b + remainder a b = a := by
  unfold quotient remainder
  split
  · rw [Nat.zero_mul, Nat.zero_add]
  · exact Nat.div_add_mod' a b

theorem remainder_lt (a : Nat) {b : Nat} (hb : b ≠ 0) : remainder a b < b := by
  rw [remainder, if_neg hb]
  exact Nat.mod_lt a (Nat.pos_of_ne_zero hb)

/-- The writes of a DIV that succeeds: q to rd, r to re, and Z from r (R141). -/
def divWrites (rd re : RegNo) (q r : Nat) : Writes :=
  { dst := [(rd, q), (re, r)], z := some (zeroFlag r) }

section
variable {rd re : RegNo} {sa sb : Src} {s : State} {a b : Nat}

theorem exec_div_of_operands (hne : rd ≠ re) (ha : Operand s sa a) (hb : Operand s sb b) :
    exec (.div rd re sa sb) s =
      .next (complete (.ok (divWrites rd re (quotient a b) (remainder a b))) s) := by
  show execDiv rd re sa sb s = _
  rw [execDiv, if_neg hne, withSrcs_operand ha hb, divWrites]

theorem exec_quo_of_operands (ha : Operand s sa a) (hb : Operand s sb b) :
    exec (.quo rd sa sb) s = .next (complete (.ok (writeDst rd (quotient a b))) s) := by
  show execQuo rd sa sb s = _
  rw [execQuo, withSrcs_operand ha hb]

theorem exec_mod_of_operands (ha : Operand s sa a) (hb : Operand s sb b) :
    exec (.mod rd sa sb) s = .next (complete (.ok (writeDst rd (remainder a b))) s) := by
  show execMod rd sa sb s = _
  rw [execMod, withSrcs_operand ha hb]

end

section
variable (rd re : RegNo) (q r : Nat) (s : State)

/-- The first destination keeps q, because the second write goes to another register. -/
theorem complete_divWrites_quotient (hne : rd ≠ re) :
    (complete (.ok (divWrites rd re q r)) s).breg[rd] = ⟨q, true⟩ := by
  show (writeReg (writeReg s.breg rd q) re r)[rd] = _
  rw [writeReg_other _ _ _ _ hne, writeReg_same]

theorem complete_divWrites_remainder :
    (complete (.ok (divWrites rd re q r)) s).breg[re] = ⟨r, true⟩ :=
  writeReg_same (writeReg s.breg rd q) re r

theorem sameRegsBut_complete_divWrites :
    SameRegsBut [rd, re] s (complete (.ok (divWrites rd re q r)) s) :=
  fun i hi => writeRegs_other [(rd, q), (re, r)] s.breg i hi

theorem complete_divWrites_z :
    (complete (.ok (divWrites rd re q r)) s).status.z = true ↔ r = 0 := by
  simp [complete_ok_z, divWrites, zeroFlag]

end

/-- Settles O16: the values are `quotient` and `remainder`, and the completion of each command writes them. -/
theorem divisionCommandsDivide : Obligations.DivisionCommandsDivide := by
  intro rd re sa sb s a b ha hb
  refine ⟨quotient a b, remainder a b, quotient_mul_add_remainder a b, remainder_lt a,
    fun h => h ▸ quotient_zero a, fun hne => ?_, ?_, ?_⟩
  · exact ⟨_, exec_div_of_operands hne ha hb, succeeded_complete _ s,
      complete_divWrites_quotient rd re _ _ s hne, complete_divWrites_remainder rd re _ _ s,
      sameRegsBut_complete_divWrites rd re _ _ s, complete_divWrites_z rd re _ _ s,
      ⟨rfl, rfl, rfl⟩, fun _ => rfl, rfl⟩
  · exact ⟨_, exec_quo_of_operands ha hb, wroteReg_complete_dst rd _ s, rfl⟩
  · exact ⟨_, exec_mod_of_operands ha hb, wroteReg_complete_dst rd _ s, rfl⟩

end Sys2Proof.Machine

/-! PROOFS. The serialisation round trip: a LOAD after a STORE or a STOREP gives the value back
(spec/44_serialize.md R151 to R154). -/

namespace Sys2Proof.Machine

/-! ### What a STORE or STOREP that did not fail has done (R62, R150, R152, R153) -/

/-- A completion without an error is that of a successful outcome (R62). -/
theorem complete_ok_of_no_error {o : CmdOutcome} {s : State} (h : (complete o s).status.err = false) :
    ∃ w, o = .ok w := by
  cases o with
  | ok w => exact ⟨w, rfl⟩
  | error c => cases h

/-- A STORE or STOREP of v without an error passed the buffer check and had room for v, and made the writes w
its command makes then. -/
theorem exec_storing_inv {i : Instr} {sa : Src} {s t : State} {v : Nat} {w : Writes} (hv : Operand s sa v)
    (hi : i = .store sa ∨ i = .storep sa)
    (hexec : BufferOk s → exec i s = .next (complete
      (if byteLen v > argLength s then .error .bufferTooSmall else .ok w) s))
    (h : exec i s = .next t) (herr : t.status.err = false) :
    BufferOk s ∧ byteLen v ≤ argLength s ∧ t = complete (.ok w) s := by
  have hb : BufferOk s := by
    obtain ⟨k, hk⟩ := exec_eq_withBuffer (.inr ⟨sa, v, hv, hi⟩)
    cases hk.symm.trans h
    obtain ⟨w', hw'⟩ := complete_ok_of_no_error herr
    exact (withBuffer_ok hw').1
  rw [hexec hb] at h
  by_cases hroom : byteLen v > argLength s
  · rw [if_pos hroom] at h
    cases h
    cases herr
  · rw [if_neg hroom] at h
    cases h
    exact ⟨hb, Nat.not_lt.1 hroom, rfl⟩

/-! ### The round trip (R154) -/

/-- MemRead after MemWrite of at least as many bytes gives the value back, if it fits in the bytes read. -/
theorem memRead_memWrite {m : Memory} (hm : m.wf = true) {a n n' v : Nat} (hle : n' ≤ n)
    (hv : v < 256 ^ n') : memRead (memWrite m a n v) a n' = v :=
  memRead_of_bytes (fun _ hi => read_memWrite_inside hm a n v (Nat.lt_of_lt_of_le hi hle)) hv

/-- RESULT after a STORE or STOREP is the canonical length of v, also as a number (R152, R153). -/
theorem complete_storeWrites_result_toNat {s : State} (o n : Nat) {v : Nat}
    (hroom : byteLen v ≤ argLength s) :
    (complete (.ok (storeWrites o n v)) s).result.toNat = byteLen v := by
  rw [complete_storeWrites_result, BitVec.toNat_ofNat,
    Nat.mod_eq_of_lt (Nat.lt_of_le_of_lt hroom s.a1l.isLt)]

theorem exec_load_of_fits {rd : RegNo} {s : State} {v : Nat} (hb : BufferOk s)
    (hv : memRead s.lmem (argOffset s) (argLength s) = v) (hfits : Fits s v) :
    exec (.load rd) s = .next (complete (.ok (loadWrites rd v)) s) := by
  rw [exec_load_of_buffer hb hv, if_neg ((fits_iff s v).1 hfits)]

/-- After n bytes of v have been stored, a LOAD at the same offset whose length n' covers v and stays within
these n bytes gives v back. -/
theorem exec_load_after_storeWrites (rd : RegNo) {s : State} {v n : Nat} {n' : Word} (hm : s.lmem.wf = true)
    (hfits : Fits s v) (hb : BufferOk s) (hn : n ≤ argLength s) (halign : n'.toNat % 4 = 0)
    (hlo : byteLen v ≤ n'.toNat) (hhi : n'.toNat ≤ n) :
    ∃ u, exec (.load rd) { complete (.ok (storeWrites (argOffset s) n v)) s with
        a0l := s.a0l, a1l := n' } = .next u ∧
      u.status.err = false ∧ u.breg[rd] = ⟨v, true⟩ ∧
      u.result = (complete (.ok (storeWrites (argOffset s) n v)) s).result := by
  obtain ⟨ho, -, hend⟩ := hb
  have hbuf : BufferOk { complete (.ok (storeWrites (argOffset s) n v)) s with
      a0l := s.a0l, a1l := n' } :=
    ⟨ho, halign, Nat.le_trans (Nat.add_le_add_left (Nat.le_trans hhi hn) _) hend⟩
  have hread := memRead_memWrite hm (a := argOffset s) hhi (lt_bytes_len v _ hlo)
  exact ⟨_, exec_load_of_fits hbuf hread hfits, rfl, (wroteReg_complete rd v _ _).value, rfl⟩

/-- Settles O21: both stores leave the bytes of v in LMEM, the STORE as many as RESULT says and the STOREP
ARG1 of them, so the LOAD's length is covered. -/
theorem storeThenLoadRoundTrips : Obligations.StoreThenLoadRoundTrips := by
  intro sa rd s t v n' hs hv herr h
  obtain ⟨hmaxl, -⟩ := hs.cfg
  have hfits : Fits s v := fits_of_operand hmaxl hs.regs hv
  obtain ⟨hstore, rfl⟩ | ⟨hstorep, halign, hlo, hhi⟩ := h
  · obtain ⟨hb, hroom, rfl⟩ := exec_storing_inv hv (.inl rfl) (exec_store_of_buffer hv) hstore herr
    have hlen := complete_storeWrites_result_toNat (argOffset s) (byteLen v) hroom
    have halign : byteLen v % 4 = 0 := Nat.mul_mod_right 4 (len v)
    exact exec_load_after_storeWrites rd hs.memForm hfits hb hroom (hlen.symm ▸ halign) hlen.ge hlen.le
  · obtain ⟨hb, hroom, rfl⟩ := exec_storing_inv hv (.inr rfl) (exec_storep_of_buffer hv) hstorep herr
    rw [complete_storeWrites_result_toNat _ _ hroom] at hlo
    exact exec_load_after_storeWrites rd hs.memForm hfits hb le_rfl halign hlo hhi

end Sys2Proof.Machine

/-! PROOFS. MODINV and MODPOW on readable sources: the inverse is the only one below the modulus, and the power
is the engine's (spec/45_modular.md R167 to R171). -/

namespace Sys2Proof.Machine

/-! ### MODINV (R167, R168) -/

/-- Two inverses of a below m are equal, because a number coprime to m cancels modulo m. -/
theorem inverse_unique {a m x y : Nat} (hgcd : Nat.gcd a m = 1) (hx : x < m) (hy : y < m)
    (hax : a * x % m = 1) (hay : a * y % m = 1) : y = x := by
  have hmod : y ≡ x [MOD m] :=
    Nat.ModEq.cancel_left_of_coprime (Nat.gcd_comm a m ▸ hgcd) (hay.trans hax.symm)
  exact hmod.eq_of_lt_of_lt hy hx

section
variable {rd : RegNo} {sa sb : Src} {s : State} {a m : Nat}

theorem exec_modinv_of_lt_two (ha : Operand s sa a) (hb : Operand s sb m) (hm : m < 2) :
    exec (.modinv rd sa sb) s = .next (complete (.error .domain) s) := by
  show execModinv rd sa sb s = _
  rw [execModinv, withSrcs_operand ha hb, if_pos hm]

theorem exec_modinv_of_not_invertible (ha : Operand s sa a) (hb : Operand s sb m) (hm : 2 ≤ m)
    (h : inverse a m = none) :
    exec (.modinv rd sa sb) s = .next (complete (.error .notInvertible) s) := by
  show execModinv rd sa sb s = _
  rw [execModinv, withSrcs_operand ha hb, if_neg (Nat.not_lt.2 hm), h]

theorem exec_modinv_of_inverse {x : Nat} (ha : Operand s sa a) (hb : Operand s sb m) (hm : 2 ≤ m)
    (h : inverse a m = some x) :
    exec (.modinv rd sa sb) s = .next (complete (.ok (writeDst rd x)) s) := by
  show execModinv rd sa sb s = _
  rw [execModinv, withSrcs_operand ha hb, if_neg (Nat.not_lt.2 hm), h]

end

/-- Settles O23: past the DOMAIN check the engine has no inverse or one below m as gcd(a, m) says
(`inverse_spec`), and the completion writes that one. -/
theorem modinvIsTheUniqueInverse : Obligations.ModinvIsTheUniqueInverse := by
  intro rd sa sb s a m ha hb
  refine ⟨fun hm => ?_, fun hm hgcd => ?_, fun hm hgcd => ?_⟩
  · exact ⟨_, exec_modinv_of_lt_two ha hb hm, failedWith_complete_code .domain 0x06 s rfl⟩
  · have hnone : inverse a m = none := (inverse_spec a m hm).1 hgcd
    exact ⟨_, exec_modinv_of_not_invertible ha hb hm hnone,
      failedWith_complete_code .notInvertible 0x08 s rfl⟩
  · obtain ⟨x, hsome, hlt, hinv⟩ := (inverse_spec a m hm).2 hgcd
    exact ⟨x, _, hlt, hinv, fun y hy => inverse_unique hgcd hlt hy hinv,
      exec_modinv_of_inverse ha hb hm hsome, wroteReg_complete_dst rd x s, rfl⟩

/-! ### MODPOW (R170, R171) -/

section
variable {rd : RegNo} {sa sb sc : Src} {s : State} {b e m : Nat}

theorem exec_modpow_of_zero (hb : Operand s sa b) (he : Operand s sb e) (hm : Operand s sc 0) :
    exec (.modpow rd sa sb sc) s = .next (complete (.error .domain) s) := by
  show execModpow rd sa sb sc s = _
  rw [execModpow, withSrcs3_operand hb he hm, if_pos rfl]

theorem exec_modpow_of_ne_zero (hb : Operand s sa b) (he : Operand s sb e) (hm : Operand s sc m)
    (h : m ≠ 0) : exec (.modpow rd sa sb sc) s =
      .next (complete (.ok (writeDst rd (if e = 0 then 1 else b ^ e % m))) s) := by
  show execModpow rd sa sb sc s = _
  rw [execModpow, withSrcs3_operand hb he hm, if_neg h, modpow_eq b e m (Nat.pos_of_ne_zero h)]

end

/-- Settles O24: past the DOMAIN check the engine gives the power (`modpow_eq`), and the completion writes
it. -/
theorem modpowIsThePowerModM : Obligations.ModpowIsThePowerModM := by
  intro rd sa sb sc s b e m hb he hm
  refine ⟨fun h => ?_, fun h => ?_⟩
  · subst h
    exact ⟨_, exec_modpow_of_zero hb he hm, failedWith_complete_code .domain 0x06 s rfl⟩
  · exact ⟨_, exec_modpow_of_ne_zero hb he hm h, wroteReg_complete_dst rd _ s, rfl⟩

end Sys2Proof.Machine

/-! PROOFS. JACOBI on readable sources: the DOMAIN check, and the writes made from the Jacobi symbol
(spec/46_jacobi.md R185 to R187). -/

namespace Sys2Proof.Machine

/-! ### The destination's form of a symbol (R186) -/

/-- The written form of a symbol is 0 only for the symbol 0: the form n - 1 of the symbol -1 would be 0 for
n = 1, where the symbol is 1. -/
theorem jacobiDst_jacobiSym_eq_zero_iff (a : Nat) {n : Nat} (hn : n % 2 = 1) :
    jacobiDst (jacobiSym a n) n = 0 ↔ jacobiSym a n = 0 := by
  obtain h | h | h := jacobiSym.trichotomy a n
  · simp [h, jacobiDst]
  · simp [h, jacobiDst]
  · have hne : n ≠ 1 := by
      rintro rfl
      rw [jacobiSym.one_right] at h
      exact absurd h (by decide)
    rw [h, jacobiDst, if_pos rfl]
    omega

/-- Z, which JACOBI sets from the symbol, is also the flag of the value written. -/
theorem zeroFlag_jacobiDst_jacobiSym (a : Nat) {n : Nat} (hn : n % 2 = 1) :
    zeroFlag (jacobiDst (jacobiSym a n) n) = (jacobiSym a n == 0) := by
  rw [zeroFlag, Bool.eq_iff_iff, beq_iff_eq, beq_iff_eq, jacobiDst_jacobiSym_eq_zero_iff a hn]

/-! ### JACOBI (R185 to R187) -/

/-- The writes of a JACOBI that succeeds with the symbol j for n: the form of j to rd with its Z flag, and
the two's-complement word of j to RESULT (R186). -/
def jacobiWrites (rd : RegNo) (j : Int) (n : Nat) : Writes :=
  { writeDst rd (jacobiDst j n) with result := some (tc32 j) }

section
variable {rd : RegNo} {sa sb : Src} {s : State} {a n : Nat}

theorem exec_jacobi_of_even (ha : Operand s sa a) (hb : Operand s sb n) (hn : n % 2 = 0) :
    exec (.jacobi rd sa sb) s = .next (complete (.error .domain) s) := by
  show execJacobi rd sa sb s = _
  rw [execJacobi, withSrcs_operand ha hb, if_pos (.inr hn)]

theorem exec_jacobi_of_odd (ha : Operand s sa a) (hb : Operand s sb n) (hn : n % 2 = 1) :
    exec (.jacobi rd sa sb) s = .next (complete (.ok (jacobiWrites rd (jacobiSym a n) n)) s) := by
  have hodd : ¬(n = 0 ∨ n % 2 = 0) := by omega
  show execJacobi rd sa sb s = _
  rw [execJacobi, withSrcs_operand ha hb, if_neg hodd, jacobi_eq a n hn, jacobiWrites,
    writeDst, zeroFlag_jacobiDst_jacobiSym a hn]

end

/-- Settles O25: past the DOMAIN check the engine gives the Jacobi symbol (`jacobi_eq`), and the completion
writes its destination form and its word. -/
theorem jacobiIsTheJacobiSymbol : Obligations.JacobiIsTheJacobiSymbol := by
  intro rd sa sb s a n ha hb
  refine ⟨fun hn => ?_, fun hn => ?_⟩
  · exact ⟨_, exec_jacobi_of_even ha hb hn, failedWith_complete_code .domain 0x06 s rfl⟩
  · have hwrote : WroteReg rd (jacobiDst (jacobiSym a n) n) s
        (complete (.ok (jacobiWrites rd (jacobiSym a n) n)) s) := wroteReg_complete rd _ _ s
    exact ⟨_, exec_jacobi_of_odd ha hb hn, hwrote,
      hwrote.z.trans (jacobiDst_jacobiSym_eq_zero_iff a hn), rfl⟩

end Sys2Proof.Machine

/-! PROOFS. How a command ends: it succeeds or fails outright, a failure has no effect, illegal operands and a
negative difference fail; and what moves IRQ (spec/60_exceptions.md R200 to R221). -/

namespace Sys2Proof.Machine

/-! ### A completion succeeds or fails outright (R200, R201, R203) -/

/-- There is no third outcome (R200). -/
theorem succeeded_or_failedWith_complete (o : CmdOutcome) (s : State) : Succeeded s (complete o s) ∨
    ∃ c : BitVec 8, 0x01 ≤ c.toNat ∧ c.toNat ≤ 0x0A ∧ FailedWith c s (complete o s) := by
  cases o with
  | ok w => exact .inl (succeeded_complete w s)
  | error c =>
    obtain ⟨hpos, hle⟩ := errorCode_range c
    exact .inr ⟨errorCode c, hpos, hle, failedWith_complete c s⟩

/-- The core's turn on a command in flight is a completion, whatever word CUR holds (R62). -/
theorem coreTurn_completes {s : State} (hb : s.status.busy = true) (hr : s.rst = false) :
    ∃ o, coreTurn s = .next (complete o s) := by
  obtain ⟨o, ho, -⟩ := completeCurrent_next s
  exact ⟨o, (coreTurn_of_busy hb hr).trans ho⟩

/-- An idle core takes whatever word is written to CMD (R61). -/
theorem accept_takes_of_idle {s : State} (h : s.status.busy = false) (w : Word) :
    (acceptCommand w s).cur = w ∧ (acceptCommand w s).status.busy = true := by
  rw [accept_of_idle h]
  exact ⟨rfl, rfl⟩

/-- Settles O28: a command and a word of CUR alike come to a completion, which leaves the core idle. -/
theorem everyCommandSucceedsOrFailsOutright : Obligations.EveryCommandSucceedsOrFailsOutright := by
  refine ⟨fun i s => ?_, fun s hb hr => ?_⟩
  · obtain ⟨o, ho⟩ := exec_next i s
    exact ⟨_, ho, succeeded_or_failedWith_complete o s⟩
  · obtain ⟨o, ho⟩ := coreTurn_completes hb hr
    exact ⟨_, ho, succeeded_or_failedWith_complete o s, accept_takes_of_idle (complete_busy s o)⟩

/-- A completion that leaves ERR = 1 is a failure, reported by its own code. -/
theorem failedWith_errcode_complete {o : CmdOutcome} {s : State}
    (h : (complete o s).status.err = true) :
    FailedWith (complete o s).status.errcode s (complete o s) := by
  cases o with
  | ok w => cases h
  | error c => exact failedWith_complete c s

/-- Settles O29: the turn is a completion, and one that leaves ERR = 1 is `takeError` alone. -/
theorem failedCommandHasNoEffect : Obligations.FailedCommandHasNoEffect := by
  intro s t hb hr hturn herr
  obtain ⟨o, ho⟩ := coreTurn_completes hb hr
  rw [ho] at hturn
  cases hturn
  exact failedWith_errcode_complete herr

/-! ### ILLEGAL_OPERAND and NEGATIVE (R206, R209, R215) -/

/-- A command that is not legal comes out as ILLEGAL_OPERAND: the selectors and the destinations of DIV are
checked before anything is read (R206). -/
theorem exec_of_not_wf {i : Instr} (s : State) (hwf : i.wf = false) :
    exec i s = .next (complete (.error .illegalOperand) s) := by
  rw [Instr.wf_eq_false_iff] at hwf
  cases i with
  | nop | movi _ | load _ => simp [Instr.srcs, Instr.dstsDiffer] at hwf
  | mov _ sa | tstz sa | len sa | store sa | storep sa =>
    have h : sa.legal = false := by simpa [Instr.srcs, Instr.dstsDiffer] using hwf
    simp only [exec, execMov, execTstz, execLen, execStore, execStorep, withSrc_illegal h]
  | cmp sa sb | add _ sa sb | sub _ sa sb | mul _ sa sb | quo _ sa sb | mod _ sa sb | gcd _ sa sb
  | modinv _ sa sb | jacobi _ sa sb =>
    have h : sa.legal = false ∨ sb.legal = false := by
      simpa [Instr.srcs, Instr.dstsDiffer] using hwf
    simp only [exec, execCmp, execAdd, execSub, execMul, execQuo, execMod, execGcd, execModinv,
      execJacobi, withSrcs_illegal h]
  | div rd re sa sb =>
    have h : (sa.legal = false ∨ sb.legal = false) ∨ rd = re := by
      simpa [Instr.srcs, Instr.dstsDiffer] using hwf
    obtain h | h := h
    · simp only [exec, execDiv, withSrcs_illegal h, ite_self]
    · simp only [exec, execDiv, if_pos h]
  | modpow _ sa sb sc =>
    have h : sa.legal = false ∨ sb.legal = false ∨ sc.legal = false := by
      simpa [Instr.srcs, Instr.dstsDiffer] using hwf
    simp only [exec, execModpow, withSrcs3_illegal h]

/-- Settles O26: such a command comes out as ILLEGAL_OPERAND (`exec_of_not_wf`), and a failure has no
effect. -/
theorem illegalOperandsAreRefused : Obligations.IllegalOperandsAreRefused := fun _ s hwf =>
  ⟨_, exec_of_not_wf s hwf, failedWith_complete .illegalOperand s⟩

/-- Settles O14: the two outcomes of SUB, by whether the subtrahend is greater. -/
theorem subIsExactOrNegative : Obligations.SubIsExactOrNegative := by
  intro rd sa sb s a b ha hb
  refine ⟨?_, fun h => ?_⟩
  · rintro d rfl
    have hsub := exec_sub_of_le (rd := rd) ha hb (Nat.le_add_right b d)
    rw [Nat.add_sub_cancel_left] at hsub
    exact ⟨_, hsub, wroteReg_complete_dst rd d s, rfl⟩
  · exact ⟨_, exec_sub_of_lt ha hb h, failedWith_complete_code .negative 0x07 s rfl⟩

/-! ### IRQ (R220, R221) -/

section
variable (s : State)

@[simp] theorem irq_complete (o : CmdOutcome) : (complete o s).irq = s.ie := by simp [State.irq]
@[simp] theorem irq_softReset : (softReset s).irq = false := rfl
@[simp] theorem irq_hardReset (draw : List (Nat × BitVec 8)) : (hardReset draw s).irq = false := rfl

/-- A word written to CMD ends IRQ if the core takes it, since it clears DONE, and not under OVR. -/
theorem irq_accept (w : Word) : (acceptCommand w s).irq = (s.irq && s.status.busy) := by
  cases h : s.status.busy
  · rw [accept_of_idle h]; simp [State.irq]
  · rw [accept_of_busy h]; simp [State.irq]

theorem irq_writeOneToClear (d : Word) :
    State.irq { s with status := s.status.writeOneToClear d } = (s.irq && !d.getLsbD 1) := by
  simp [State.irq, Status.writeOneToClear, Bool.and_assoc]

variable {s} {d : Word} {off : Nat}

/-- The one register write that raises IRQ sets IE, with DONE = 1 (R220). -/
theorem irq_rise_of_regWrite (h : s.irq = false) (h' : (regWrite d off s).irq = true) :
    off = 0x0C ∧ s.status.done = true ∧ d.getLsbD 0 = true := by
  obtain ⟨-, -, e⟩ | ⟨hoff, -, e⟩ | ⟨-, e⟩ | ⟨-, e⟩ | ⟨-, e⟩ | ⟨-, e⟩ | e := regWrite_cases d off s <;>
    rw [e] at h'
  · cases h'
  · obtain ⟨hie, hdone⟩ := (Bool.and_eq_true _ _).mp h'
    exact ⟨hoff, hdone, hie⟩
  · rw [irq_writeOneToClear, h] at h'
    cases h'
  · rw [irq_accept, h] at h'
    cases h'
  all_goals exact Bool.noConfusion (h.symm.trans h')

/-- The register writes that end IRQ: STATUS with the bit of DONE, CMD to an idle core, and CTRL clearing IE
or resetting (R221, R231). -/
theorem irq_fall_of_regWrite (h : s.irq = true) (h' : (regWrite d off s).irq = false) :
    (off = 0x10 ∧ d.getLsbD 1 = true) ∨ (off = 0x14 ∧ s.status.busy = false) ∨
    (off = 0x0C ∧ (d.getLsbD 0 = false ∨ d.getLsbD 1 = true)) := by
  obtain ⟨hoff, hd, -⟩ | ⟨hoff, -, e⟩ | ⟨hoff, e⟩ | ⟨hoff, e⟩ | ⟨-, e⟩ | ⟨-, e⟩ | e :=
    regWrite_cases d off s
  · exact .inr (.inr ⟨hoff, .inr hd⟩)
  · have hdone : s.status.done = true := ((Bool.and_eq_true _ _).mp h).2
    exact .inr (.inr ⟨hoff, .inl (by simpa [e, State.irq, hdone] using h')⟩)
  · exact .inl ⟨hoff, by simpa [e, irq_writeOneToClear, h] using h'⟩
  · exact .inr (.inl ⟨hoff, by simpa [e, irq_accept, h] using h'⟩)
  all_goals
    rw [e] at h'
    exact Bool.noConfusion (h'.symm.trans h)

end

/-- A step by what it does to IRQ: a completion puts IE, the release of RST puts 0, a register write does as
`regWrite` does, and nothing else moves it. -/
theorem irq_step_cases {s t : State} (h : step s = .next t) :
    (s.status.busy = true ∧ t.status.busy = false ∧ t.irq = s.ie) ∨
    ((∃ draw rest, s.inputs = .rstRelease draw :: rest) ∧ t.irq = false) ∨
    (∃ off d rest, NextWrites s off d ∧ t.irq = (regWrite d off { s with inputs := rest }).irq) ∨
    t.irq = s.irq := by
  obtain ⟨o, is, hb, -, rfl, -⟩ | ⟨is, rfl⟩ | ⟨a, is, hi, -, -, rfl⟩ | ⟨is, -, rfl⟩ |
    ⟨draw, is, hi, -, rfl⟩ := step_cases h
  · exact .inl ⟨hb, complete_busy _ _, irq_complete _ _⟩
  · exact .inr (.inr (.inr rfl))
  · obtain ⟨r, e⟩ | ⟨off, d, ha, -, -, e⟩ | ⟨k, -, -, -, -, e⟩ :=
      busAccess_cases a { s with inputs := is } <;> rw [e]
    · exact .inr (.inr (.inr rfl))
    · exact .inr (.inr (.inl ⟨off, d, is, ⟨is, ha ▸ hi⟩, rfl⟩))
    · exact .inr (.inr (.inr rfl))
  · exact .inr (.inr (.inr rfl))
  · exact .inr (.inl ⟨⟨draw, is, hi⟩, rfl⟩)

/-- Settles O41: the kinds of `irq_step_cases`, the register writes by `irq_rise_of_regWrite` and
`irq_fall_of_regWrite`. -/
theorem irqChangesOnlyByItsCauses : Obligations.IrqChangesOnlyByItsCauses := by
  intro s t h
  obtain ⟨hb, hidle, e⟩ | ⟨hrelease, e⟩ | ⟨off, d, rest, hw, e⟩ | e := irq_step_cases h
  · refine ⟨fun _ ht => .inl ⟨e ▸ ht, hb, hidle⟩, fun hs ht => ?_⟩
    have hie : s.ie = true := ((Bool.and_eq_true _ _).mp hs).1
    exact Bool.noConfusion ((e ▸ ht).symm.trans hie)
  · exact ⟨fun _ ht => Bool.noConfusion (e.symm.trans ht), fun _ _ => .inr (.inr (.inr hrelease))⟩
  · refine ⟨fun hs ht => ?_, fun hs ht => ?_⟩
    · obtain ⟨rfl, hdone, hd⟩ := irq_rise_of_regWrite (s := { s with inputs := rest }) hs (e ▸ ht)
      exact .inr ⟨hdone, d, hw, hd⟩
    · obtain ⟨rfl, hd⟩ | ⟨rfl, hb⟩ | ⟨rfl, hd⟩ :=
        irq_fall_of_regWrite (s := { s with inputs := rest }) hs (e ▸ ht)
      · exact .inl ⟨d, hw, hd⟩
      · exact .inr (.inl ⟨hb, d, hw⟩)
      · exact .inr (.inr (.inl ⟨d, hw, hd⟩))
  · exact ⟨fun hs ht => Bool.noConfusion (hs.symm.trans (e ▸ ht)),
      fun hs ht => Bool.noConfusion (ht.symm.trans (e ▸ hs))⟩

end Sys2Proof.Machine

/-! PROOFS. The two resets, and runs: a run that keeps the bus contract never stops, and with RST released it
comes to its end (spec/70_reset_and_hazards.md R230 to R239). -/

namespace Sys2Proof.Machine

/-! ### The resets (R230, R231) -/

theorem reset_breg_invalid (i : RegNo) :
    ((Vector.replicate 16 (⟨0, false⟩ : BReg))[i]).valid = false := by
  simp

theorem reset_status_toWord :
    Status.toWord ⟨false, false, false, false, false, false, false, false, 0⟩ = 0 := by
  decide

/-- A write to CTRL with bit 1 set is the soft reset, whatever its other bits (R231). -/
theorem regWrite_ctrl_reset {d : Word} (h : d.getLsbD 1 = true) (s : State) :
    regWrite d 0x0C s = softReset s := by
  show writeCtrl d s = _
  rw [writeCtrl, if_pos h]

/-- Settles O39: the write reaches `softReset`, with a command in flight too. -/
theorem softResetKeepsOnlyLmem : Obligations.SoftResetKeepsOnlyLmem := by
  intro s d rest hr hd hi
  have hstep := step_regWrite hr (by decide) (by decide) hi
  rw [regWrite_ctrl_reset hd] at hstep
  exact ⟨_, hstep, rfl, rfl, rfl, reset_breg_invalid, rfl, rfl, rfl, reset_status_toWord,
    rfl, rfl, rfl, rfl, rfl, rfl⟩

/-- A run takes its first step and goes on from there. -/
theorem run_succ {M : Host.Core} {s t : M.State} (h : M.step s = .next t) (k : Nat) :
    M.run (k + 1) s = M.run k t := by
  rw [Host.Core.run, h]

theorem step_of_rstAssert {s : State} {rest : List Input} (h : s.inputs = .rstAssert :: rest) :
    step s = .next { s with inputs := rest, rst := true } := by
  rw [step, h]; rfl

theorem step_of_rstRelease {s : State} {draw : List (Nat × BitVec 8)} {rest : List Input}
    (h : s.inputs = .rstRelease draw :: rest) (hr : s.rst = true) :
    step s = .next (hardReset draw { s with inputs := rest }) := by
  rw [step, h]
  exact if_pos hr

theorem step_of_rstRelease_released {s : State} {draw : List (Nat × BitVec 8)} {rest : List Input}
    (h : s.inputs = .rstRelease draw :: rest) (hr : s.rst = false) :
    step s = .next { s with inputs := rest } := by
  rw [step, h]
  exact if_neg (by simp [hr])

/-- Asserted and then released, RST leads to `hardReset` in two steps. -/
theorem run_rst {s : State} {draw : List (Nat × BitVec 8)} {rest : List Input}
    (h : s.inputs = .rstAssert :: .rstRelease draw :: rest) :
    Host.Core.run core 2 s = .next (hardReset draw { s with inputs := rest, rst := true }) := by
  rw [run_succ (M := core) (step_of_rstAssert h), run_succ (M := core) (step_of_rstRelease rfl rfl)]
  rfl

/-- Settles O40: two steps lead to `hardReset`, and a draw of distinct offsets is what LMEM then reads
(`draw_read`). -/
theorem hardResetSetsResetValues : Obligations.HardResetSetsResetValues := by
  intro s draw rest h
  exact ⟨_, run_rst h, rfl, rfl, rfl, reset_breg_invalid, rfl, rfl, rfl, reset_status_toWord,
    rfl, rfl, rfl, rfl, rfl, rfl, rfl,
    fun hnodup c hc hlt => draw_read s.cfg.lmemBytes draw [] rfl hnodup hc hlt⟩

/-- Legal parameters are all the invariant needs of the state before a hardware reset. -/
theorem inv_hardReset {s : State} (h : s.cfg.wf) (draw : List (Nat × BitVec 8)) :
    (hardReset draw s).Inv :=
  have ⟨hform, hsize⟩ := drawMemory_wf s.cfg.lmemBytes draw
  have ⟨hrange, hagree, hexcl, horder⟩ := statusInv_reset
  ⟨h, fits_reset_breg s, hform, hsize, hrange, hagree, hexcl, horder⟩

/-- Settles O45: State.reset is what a hardware reset with an empty draw leaves of it. -/
theorem resetMeetsInvariant : Obligations.ResetMeetsInvariant :=
  ⟨inv_hardReset (s := State.reset) (by decide) [], fun _ draw h => inv_hardReset h draw⟩

/-! ### One step, by its oldest input (R61, R62, R71) -/

theorem step_of_bus {s : State} {a : Access} {rest : List Input} (h : s.inputs = .bus a :: rest)
    (hr : (s.rst && inWindow s a) = false) (hst : stalled s a = false) :
    step s = .next (busAccess a { s with inputs := rest }) := by
  simp only [step, h, takeInput, hr, hst, Bool.false_eq_true, if_false]

/-- An access waits only with a command in flight, and lies in the window (R48, R71). -/
theorem busy_inWindow_of_stalled {s : State} {a : Access} (h : stalled s a = true) :
    s.status.busy = true ∧ inWindow s a = true := by
  simp only [stalled, inLmem, Bool.and_eq_true] at h
  obtain ⟨hb, ⟨hw, -⟩, -⟩ := h
  exact ⟨hb, hw⟩

/-- What the core's turn leaves alone, and that it ends with the core idle unless RST is asserted. -/
structure CoreTurned (s t : State) : Prop where
  cfg : t.cfg = s.cfg
  rst : t.rst = s.rst
  inputs : t.inputs = s.inputs
  idle : s.rst = false → t.status.busy = false

theorem coreTurned_complete (o : CmdOutcome) (s : State) : CoreTurned s (complete o s) :=
  ⟨complete_cfg s o, complete_rst s o, complete_inputs s o, fun _ => complete_busy s o⟩

theorem coreTurn_next (s : State) : ∃ t, coreTurn s = .next t ∧ CoreTurned s t := by
  obtain ⟨-, -, o, ho, -⟩ | ⟨hno, ho⟩ := coreTurn_cases s
  · exact ⟨_, ho, coreTurned_complete o s⟩
  · exact ⟨s, ho, rfl, rfl, rfl, fun hr => hno.resolve_right (by simp [hr])⟩

/-- A host access the contract allows is a completion that keeps it waiting, or is made at once (R71). -/
theorem step_bus_next {s : State} {a : Access} {rest : List Input} (h : s.inputs = .bus a :: rest)
    (hr : (s.rst && inWindow s a) = false) :
    (s.status.busy = true ∧ ∃ t, step s = .next t ∧ CoreTurned s t) ∨
    step s = .next (busAccess a { s with inputs := rest }) := by
  cases hst : stalled s a with
  | false => exact .inr (step_of_bus h hr hst)
  | true =>
    obtain ⟨hb, hw⟩ := busy_inWindow_of_stalled hst
    rw [hw, Bool.and_true] at hr
    obtain ⟨o, ho, -⟩ := completeCurrent_next s
    exact .inl ⟨hb, _, (step_of_stalled h hr hst).trans ho, coreTurned_complete o s⟩

/-! ### Runs that keep the bus contract (R200, R230) -/

/-- The inputs still to come keep the contract, from the present level of RST on. -/
def InContract (s : State) : Prop := keepsContract s.cfg s.rst s.inputs = true

theorem CoreTurned.inContract {s t : State} (hc : CoreTurned s t) (h : InContract s) : InContract t := by
  rwa [InContract, hc.cfg, hc.rst, hc.inputs]

theorem InContract.busAccess {s : State} (h : InContract s) (a : Access) :
    InContract (busAccess a s) := by
  rwa [InContract, busAccess_cfg, busAccess_rst, busAccess_inputs]

theorem keepsContract_bus {s : State} {a : Access} {rest : List Input}
    (h : keepsContract s.cfg s.rst (.bus a :: rest) = true) :
    (s.rst && inWindow s a) = false ∧ keepsContract s.cfg s.rst rest = true := by
  rw [keepsContract, Bool.and_eq_true, Bool.not_eq_true'] at h
  exact h

/-- A step within the contract gives a next state within the contract. -/
theorem step_keeps_contract {s : State} (h : InContract s) : ∃ t, step s = .next t ∧ InContract t := by
  cases hi : s.inputs with
  | nil =>
    obtain ⟨t, ht, hc⟩ := coreTurn_next s
    exact ⟨t, (step_of_no_input hi).trans ht, hc.inContract h⟩
  | cons i rest =>
    have hkeeps : keepsContract s.cfg s.rst (i :: rest) = true := hi ▸ h
    cases i with
    | core =>
      obtain ⟨t, ht, hc⟩ := coreTurn_next { s with inputs := rest }
      exact ⟨t, (step_of_core hi).trans ht, hc.inContract hkeeps⟩
    | bus a =>
      obtain ⟨hr, hrest⟩ := keepsContract_bus hkeeps
      obtain ⟨-, t, ht, hc⟩ | ht := step_bus_next hi hr
      · exact ⟨t, ht, hc.inContract h⟩
      · exact ⟨_, ht, InContract.busAccess (s := { s with inputs := rest }) hrest a⟩
    | rstAssert => exact ⟨_, step_of_rstAssert hi, hkeeps⟩
    | rstRelease draw =>
      cases hr : s.rst with
      | true => exact ⟨_, step_of_rstRelease hi hr, hkeeps⟩
      | false => exact ⟨_, step_of_rstRelease_released hi hr, hr ▸ hkeeps⟩

/-- Settles O48: by induction on the steps, each of which stays within the contract. -/
theorem contractRunsNeverStop : Obligations.ContractRunsNeverStop := by
  intro k
  induction k with
  | zero => exact fun s _ => ⟨s, rfl⟩
  | succ k ih =>
    intro s h
    obtain ⟨t, ht, hc⟩ := step_keeps_contract h
    rw [run_succ (M := core) ht]
    exact ih t hc

/-! ### A run with RST released comes to its end (R236, R239) -/

/-- RST is released, and only core turns and host accesses are still to come. -/
def RunsReleased (s : State) : Prop :=
  s.rst = false ∧ ∀ i ∈ s.inputs, i = .core ∨ ∃ a, i = .bus a

/-- The most steps a run with RST released still takes: an input may wait for one completion, and the command
in flight takes one. -/
def stepsLeft (s : State) : Nat := 2 * s.inputs.length + s.status.busy.toNat

theorem finished_of_stepsLeft {s : State} (h : stepsLeft s = 0) : s.finished := by
  simpa [stepsLeft, State.finished] using h

theorem RunsReleased.of_fields {s t : State} {is : List Input} (h : RunsReleased s)
    (hsub : ∀ i ∈ is, i ∈ s.inputs) (hr : t.rst = s.rst) (hi : t.inputs = is) : RunsReleased t :=
  ⟨hr.trans h.1, fun i hmem => h.2 i (hsub i (hi ▸ hmem))⟩

theorem CoreTurned.stepsLeft_eq {s t : State} (h : CoreTurned s t) (hr : s.rst = false) :
    stepsLeft t = 2 * s.inputs.length := by
  rw [stepsLeft, h.inputs, h.idle hr]; rfl

/-- A step with RST released leaves one step fewer, or none. -/
theorem step_uses_stepsLeft {s : State} (h : RunsReleased s) :
    ∃ t, step s = .next t ∧ RunsReleased t ∧ stepsLeft t ≤ stepsLeft s - 1 := by
  have hr : s.rst = false := h.1
  cases hi : s.inputs with
  | nil =>
    obtain ⟨t, ht, hc⟩ := coreTurn_next s
    refine ⟨t, (step_of_no_input hi).trans ht, h.of_fields (fun _ => id) hc.rst hc.inputs, ?_⟩
    rw [hc.stepsLeft_eq hr, hi]
    exact Nat.zero_le _
  | cons i rest =>
    have hsub : ∀ j ∈ rest, j ∈ s.inputs := fun j hj => hi ▸ List.mem_cons_of_mem i hj
    have hlen : s.inputs.length = rest.length + 1 := by rw [hi]; rfl
    obtain rfl | ⟨a, rfl⟩ := h.2 i (hi ▸ List.mem_cons_self)
    · obtain ⟨t, ht, hc⟩ := coreTurn_next { s with inputs := rest }
      refine ⟨t, (step_of_core hi).trans ht, h.of_fields hsub hc.rst hc.inputs, ?_⟩
      rw [hc.stepsLeft_eq hr, stepsLeft]
      show 2 * rest.length ≤ _
      omega
    · obtain ⟨hb, t, ht, hc⟩ | ht := step_bus_next hi (by simp [hr])
      · refine ⟨t, ht, h.of_fields (fun _ => id) hc.rst hc.inputs, ?_⟩
        rw [hc.stepsLeft_eq hr, stepsLeft, hb]
        exact Nat.le_refl _
      · refine ⟨_, ht, h.of_fields hsub (busAccess_rst _ _) (busAccess_inputs _ _), ?_⟩
        have hle := Bool.toNat_le (busAccess a { s with inputs := rest }).status.busy
        rw [stepsLeft, stepsLeft, busAccess_inputs]
        show 2 * rest.length + _ ≤ _
        omega

/-- A run at least as long as `stepsLeft` says is finished. -/
theorem run_finishes {k : Nat} {s : State} (h : RunsReleased s) (hk : stepsLeft s ≤ k) :
    ∃ t, Host.Core.run core k s = .next t ∧ t.finished := by
  induction k generalizing s with
  | zero => exact ⟨s, rfl, finished_of_stepsLeft (Nat.le_zero.mp hk)⟩
  | succ k ih =>
    obtain ⟨t, ht, hreleased, hle⟩ := step_uses_stepsLeft h
    rw [run_succ (M := core) ht]
    exact ih hreleased (by omega)

/-- Settles O49: n inputs and a command in flight leave at most 2·n + 1 steps. -/
theorem everyRunComesToItsEnd : Obligations.EveryRunComesToItsEnd := fun s hr hi =>
  run_finishes ⟨hr, hi⟩ (Nat.add_le_add_left (Bool.toNat_le s.status.busy) _)

end Sys2Proof.Machine
